-- ==== Sys2Proof/Word.lean ====
section
/-! DEFINITION. The bit vectors of the spec's notation (00_scope.md R6): bit 0 is the least significant bit, a byte is
8 bits, a field value register 16 bits, a command word and the result register 32 bits. -/

namespace Sys2Proof

/-- A byte is 8 bits (00_scope.md R6): a frame byte, a byte of FBUF. -/
abbrev Byte := BitVec 8

/-- The 16 bits of a field value register `FV[t][k]` (10_state.md R20) and of IMM16 (30_encoding.md R71). -/
abbrev Half := BitVec 16

/-- The 32 bits of a command word (30_encoding.md R70) and of RES (10_state.md R20). -/
abbrev Word := BitVec 32

end Sys2Proof
end

