-- ==== Sys2Proof/Config.lean ====
section
/-! DEFINITION. What an implementation of FCODEC fixes (00_scope.md R5), and the one free value of the spec: the
contents of the frame buffer after a reset (10_state.md R34). -/

namespace Sys2Proof.Config

/-- `HEADER_CHECK` (00_scope.md R5, D8): which header bytes DEC and NEWD compare. -/
inductive HeaderCheck where
  | all
  | lengthOnly
deriving DecidableEq, Repr

/-- `ENUM_DECODE_CHECK` (00_scope.md R5, D7): what DEC and NEWD do with a value that is no member of an enumeration. -/
inductive EnumDecodeCheck where
  | reject
  | acceptRaw
deriving DecidableEq, Repr

/-- `PAD_DECODE_CHECK` (00_scope.md R5, D9): what DEC and NEWD do with pad bits that are not zero. -/
inductive PadDecodeCheck where
  | ignore
  | rejectNonzero
deriving DecidableEq, Repr

/-- The three policy parameters that a model may take as arguments (00_scope.md R5). -/
structure Policy where
  header : HeaderCheck
  enums : EnumDecodeCheck
  pads : PadDecodeCheck
deriving DecidableEq, Repr

/-- The defaults of 00_scope.md R5: `ALL`, `REJECT`, `IGNORE`. -/
def defaultPolicy : Policy where
  header := .all
  enums := .reject
  pads := .ignore

/-- `FBUF_SIZE` (00_scope.md R5): the frame buffer has 16 bytes. -/
def bufferSize : Nat := 16

/-- FREE VALUE. The draw of FBUF byte `address` at reset number `reset` (10_state.md R34: "a model takes each byte as a
draw"; 93_implementation_defined.md I5: any value). It has no body: nothing can be proved of it (log 1). -/
opaque fbufDraw (reset address : Nat) : Byte

end Sys2Proof.Config
end

