-- ==== Sys2Proof/Syntax.lean ====
section
/-! DEFINITION. The frame types and the eleven commands of FCODEC (30_encoding.md R71, R73): one constructor per row of
spec/opcode_table.json. -/

namespace Sys2Proof

/-- The frame types with field registers, in the order of their index FT (00_scope.md R5, 30_encoding.md R71):
0 Control, 1 Status, 2 DiagSend, 3 DiagRec. -/
inductive FrameType where
  | control
  | status
  | diagSend
  | diagRec
deriving DecidableEq, Repr

/-- `NF(t)`, the number of non-pad fields of a type (00_scope.md R5, 30_encoding.md R74). -/
def FrameType.fieldCount : FrameType → Nat
  | .control => 7
  | .status => 9
  | .diagSend => 8
  | .diagRec => 8

/-- The commands of 30_encoding.md R73, with the operands each uses. -/
inductive Instr where
  /-- CLR (41_frame_fields.md R140). -/
  | clr (ft : FrameType)
  /-- SETF (41_frame_fields.md R141). -/
  | setf (ft : FrameType) (fidx : BitVec 4) (imm16 : Half)
  /-- GETF (41_frame_fields.md R142). -/
  | getf (ft : FrameType) (fidx : BitVec 4)
  /-- ENC (40_codec.md R110). -/
  | enc (ft : FrameType)
  /-- DEC (40_codec.md R111). -/
  | dec (ft : FrameType)
  /-- NEWD (41_frame_fields.md R143). -/
  | newd (ft : FrameType)
  /-- HDR (40_codec.md R112). -/
  | hdr (ft : FrameType)
  /-- WRB (42_buffer.md R160). -/
  | wrb (baddr : BitVec 4) (imm8 : Byte)
  /-- RDB (42_buffer.md R161). -/
  | rdb (baddr : BitVec 4)
  /-- SETLEN (42_buffer.md R162). -/
  | setlen (len5 : BitVec 5)
  /-- GETLEN (42_buffer.md R163). -/
  | getlen
deriving DecidableEq, Repr

end Sys2Proof
end

