-- ==== Sys2Proof/Machine/State.lean ====
section
/-! DEFINITION. The state of FCODEC (10_state.md R20), the reasons a step may stop, and the state after reset
(10_state.md R34, 70_reset_and_hazards.md R200). -/

namespace Sys2Proof.Machine

open Sys2Proof.Config

/-- One field of a frame type: its 16-bit field value register `FV[t][k]` and its valid flag `V[t][k]`
(10_state.md R20, R21). `v = false` means the field is unset. -/
structure FieldReg where
  fv : Half
  v : Bool
deriving DecidableEq, Repr

/-- An unset field as reset and CLR leave it: FV 0x0000, V 0 (10_state.md R34, 41_frame_fields.md R140). -/
def FieldReg.unset : FieldReg := ⟨0, false⟩

/-- What the host does at one instant (00_scope.md R4, 70_reset_and_hazards.md R200, R203; log 3). -/
inductive HostInput where
  /-- The host presents one command word on the command port (30_encoding.md R70). -/
  | command (w : Word)
  /-- The host or the platform asserts reset (70_reset_and_hazards.md R200). -/
  | reset
  /-- The host issues `second` while `first` is in progress (70_reset_and_hazards.md R203, 93 I7). -/
  | overlapping (first second : Word)
deriving DecidableEq, Repr

/-- The reasons a step stops with a fault. None of them is an error of the block's: those write ERR and ERRF and go on
(60_exceptions.md R182). -/
inductive Fault where
  /-- Raised by the range guard of the frame buffer (`State.onRange`) on an access to an address the buffer does not
  have (20_memory.md R53: no command can encode one). Only a state whose buffer is not in canonical form reaches it.
  Safe: the model stops. -/
  | noSuchAddress (address : Nat)
  /-- Raised by `step` on the input `overlapping`: "a model has no step for it, and the behaviour is undefined"
  (93 I7, 70_reset_and_hazards.md R203). Safe: the model stops. -/
  | overlappingCommands
deriving DecidableEq, Repr

/-- The reasons a step refuses. -/
inductive Refusal where
  /-- Raised by `exec`'s arm of an instruction that has no meaning yet; no arm raises it now. Safe: the model stops. -/
  | notModelled (mnemonic : String)
deriving DecidableEq, Repr

/-- The state of FCODEC. The first ten fields are all the spec gives the machine (10_state.md R20, R33); the last three
are the model's own: the policy parameters (log 5), the number of resets taken (log 1) and what the host does next
(log 3). -/
structure State where
  /-- `FV[0][k]` and `V[0][k]`, k in 0..6 (10_state.md R24). -/
  control : Vector FieldReg 7
  /-- `FV[1][k]` and `V[1][k]`, k in 0..8 (10_state.md R25). -/
  status : Vector FieldReg 9
  /-- `FV[2][k]` and `V[2][k]`, k in 0..7 (10_state.md R26). -/
  diagSend : Vector FieldReg 8
  /-- `FV[3][k]` and `V[3][k]`, k in 0..7 (10_state.md R26). -/
  diagRec : Vector FieldReg 8
  /-- `FBUF[0..15]`, the whole address space (20_memory.md R50), as (address, byte) pairs (log 2). -/
  fbuf : List Host.Cell
  /-- `FLEN` (10_state.md R29). -/
  flen : BitVec 5
  /-- `RES` (10_state.md R31). -/
  res : Word
  /-- `RESV` (10_state.md R31). -/
  resv : Bool
  /-- `ERR` (10_state.md R32). -/
  err : BitVec 3
  /-- `ERRF` (10_state.md R32). -/
  errf : BitVec 4
  /-- The model's own: the policy parameters of 00_scope.md R5; no step writes them. -/
  policy : Policy
  /-- The model's own: how many resets were taken since `State.reset`; it names the present draw of FBUF. -/
  resets : Nat
  /-- The model's own: what the host does next, first input first. -/
  inputs : List HostInput
deriving DecidableEq, Repr

/-- FBUF as reset number `n` leaves it: every byte of the 16 a draw (10_state.md R34; log 1). -/
def drawnBuffer (n : Nat) : List Host.Cell :=
  (List.range bufferSize).map fun a => (a, fbufDraw n a)

/-- The machine right after reset (10_state.md R34, 70_reset_and_hazards.md R200): every field unset and 0, FLEN, RES,
RESV, ERR and ERRF 0, FBUF a draw. The policy has R5's defaults and the host has done nothing yet. -/
def State.reset : State where
  control := Vector.replicate 7 .unset
  status := Vector.replicate 9 .unset
  diagSend := Vector.replicate 8 .unset
  diagRec := Vector.replicate 8 .unset
  fbuf := drawnBuffer 0
  flen := 0
  res := 0
  resv := false
  err := 0
  errf := 0
  policy := defaultPolicy
  resets := 0
  inputs := []

end Sys2Proof.Machine
end

