-- ==== Sys2Proof/Machine/Flags.lean ====
section
/-! DEFINITION. The error codes and details that commands write to ERR and ERRF (60_exceptions.md R181): FCODEC's only
flags besides RESV and the valid flags (10_state.md R33). -/

namespace Sys2Proof.Machine

/-- The errors a command may raise (60_exceptions.md R181). -/
inductive CmdError where
  /-- field `k` is unset (ENC) -/
  | encUnset (k : Nat)
  /-- field `k` is set and not legal (ENC) -/
  | encRange (k : Nat)
  /-- `FLEN != L(t)` (DEC, NEWD) -/
  | decLength
  /-- header byte `i` differs from the type's constant (DEC, NEWD) -/
  | decHeader (i : Nat)
  /-- enumerated field `k` is no member; or, with `k = 15` and under `REJECT_NONZERO` only, pad bits are not zero
  (DEC, NEWD) -/
  | decValue (k : Nat)
  /-- the word names no command -/
  | illegalCommand
deriving DecidableEq, Repr

/-- The code an error writes to ERR (60_exceptions.md R181). Code 0 is no error, code 7 is never written. -/
def CmdError.code : CmdError → BitVec 3
  | .encUnset _ => 1
  | .encRange _ => 2
  | .decLength => 3
  | .decHeader _ => 4
  | .decValue _ => 5
  | .illegalCommand => 6

/-- The detail an error writes to ERRF (60_exceptions.md R181): the field, the header byte, 15 for pads, else 0. -/
def CmdError.detail : CmdError → BitVec 4
  | .encUnset k => BitVec.ofNat 4 k
  | .encRange k => BitVec.ofNat 4 k
  | .decLength => 0
  | .decHeader i => BitVec.ofNat 4 i
  | .decValue k => BitVec.ofNat 4 k
  | .illegalCommand => 0

end Sys2Proof.Machine
end

