-- ==== Sys2Proof/Machine/Operands.lean ====
section
/-! DEFINITION. The field catalogue, the legal sets and the reading of operands and values (00_scope.md R8, 10_state.md
R22 to R26, 30_encoding.md R72, 40_codec.md R115). -/

namespace Sys2Proof.Machine

/-- The kinds of field (10_state.md R22). -/
inductive FieldKind where
  /-- signed 16-bit integer, two's complement -/
  | s16
  /-- unsigned 8-bit integer -/
  | u8
  /-- single bit -/
  | b1
  /-- Direction enumeration: STOP=0, CLOCKWISE=1, ANTI_CLOCKWISE=3 -/
  | dir
  /-- device status enumeration: OPERATING=0, ERROR=1 -/
  | hvc
deriving DecidableEq, Repr

/-- The packed width of a kind, in payload bits (10_state.md R22). -/
def FieldKind.width : FieldKind → Nat
  | .s16 => 16
  | .u8 => 8
  | .b1 => 1
  | .dir => 2
  | .hvc => 2

/-- `legal(kind, x)` of 10_state.md R23. -/
def legal (kind : FieldKind) (x : Half) : Bool :=
  match kind with
  | .s16 => true
  | .u8 => decide (x.toNat ≤ 255)
  | .b1 => decide (x.toNat ≤ 1)
  | .dir => decide (x.toNat = 0 ∨ x.toNat = 1 ∨ x.toNat = 3)
  | .hvc => decide (x.toNat = 0 ∨ x.toNat = 1)

/-- The kinds whose values DEC checks: the enumerations of two bits (40_codec.md R111 step 3). -/
def FieldKind.isEnum : FieldKind → Bool
  | .s16 => false
  | .u8 => false
  | .b1 => false
  | .dir => true
  | .hvc => true

/-- `kind(t,k)`: the catalogues of 10_state.md R24 (Control), R25 (Status) and R26 (DiagSend and DiagRec). -/
def kinds : (t : FrameType) → Vector FieldKind t.fieldCount
  | .control => #v[.s16, .s16, .u8, .b1, .b1, .b1, .dir]
  | .status => #v[.s16, .b1, .b1, .b1, .b1, .hvc, .u8, .u8, .u8]
  | .diagSend => #v[.u8, .u8, .u8, .u8, .u8, .u8, .u8, .u8]
  | .diagRec => #v[.u8, .u8, .u8, .u8, .u8, .u8, .u8, .u8]

/-- The field names of the catalogues (10_state.md R24, R25, R26; C6 for `stallDetectEnable`). -/
def fieldNames : (t : FrameType) → Vector String t.fieldCount
  | .control => #v["initPos", "newPos", "speed", "opMode", "motorEnable", "stallDetectEnable", "direction"]
  | .status => #v["currentPos", "linError", "stallDetected", "overTemp", "overCurrent", "hvcStatus", "bvdd", "tj",
      "currentSpeed"]
  | .diagSend => #v["nad", "pci", "sid", "d1", "d2", "d3", "d4", "d5"]
  | .diagRec => #v["nad", "pci", "sid", "d1", "d2", "d3", "d4", "d5"]

/-- The value a field register stands for: `sint16` for s16, `uint` for every other kind (00_scope.md R8). -/
def fieldValue (kind : FieldKind) (x : Half) : Int :=
  match kind with
  | .s16 => x.toInt
  | .u8 => x.toNat
  | .b1 => x.toNat
  | .dir => x.toNat
  | .hvc => x.toNat

/-- GETF's extension of a field register to RES: `sext_32` for s16, `zext_32` for every other kind
(41_frame_fields.md R142). -/
def extendField (kind : FieldKind) (x : Half) : Word :=
  match kind with
  | .s16 => x.signExtend 32
  | .u8 => x.setWidth 32
  | .b1 => x.setWidth 32
  | .dir => x.setWidth 32
  | .hvc => x.setWidth 32

/-- `a = uint(BADDR)`, a byte address (30_encoding.md R72). -/
def byteAddress (baddr : BitVec 4) : Nat := baddr.toNat

/-- `FV[t][k]` and `V[t][k]` of the whole type: the register set of `t` (10_state.md R21). -/
def State.frame (s : State) : (t : FrameType) → Vector FieldReg t.fieldCount
  | .control => s.control
  | .status => s.status
  | .diagSend => s.diagSend
  | .diagRec => s.diagRec

/-- Replaces the register set of `t` (10_state.md R21). -/
def State.setFrame (s : State) : (t : FrameType) → Vector FieldReg t.fieldCount → State
  | .control, fs => { s with control := fs }
  | .status, fs => { s with status := fs }
  | .diagSend, fs => { s with diagSend := fs }
  | .diagRec, fs => { s with diagRec := fs }

end Sys2Proof.Machine
end

