-- ==== Sys2Proof/Machine/Ops.lean ====
section
/-! DEFINITION. The named operations over the frame buffer, the field registers and the output registers; raising an
error (`raise`, what this machine has in the place of exception entry) and completing (`ok`), both of 00_scope.md R7. -/

namespace Sys2Proof.Machine

open Sys2Proof.Config

/-- The canonical form of FBUF: exactly the addresses 0, 1, ..., 15, in that order (20_memory.md R50; log 2). The
addresses rise strictly, every byte of the address space has its one entry, and equal buffers are equal lists. -/
abbrev Memory.wf (m : List Host.Cell) : Prop := m.map Prod.fst = List.range bufferSize

/-- `MemRead(a, 1)` (00_scope.md R7, 20_memory.md R52); no value at an address the buffer does not have. -/
def readByte : List Host.Cell → Nat → Option Byte
  | [], _ => none
  | (b, v) :: m, a => if a = b then some v else readByte m a

/-- `MemWrite(a, 1, v)` (00_scope.md R7, 20_memory.md R52). -/
def writeByte : List Host.Cell → Nat → Byte → List Host.Cell
  | [], _, _ => []
  | (b, w) :: m, a, v => if a = b then (b, v) :: m else (b, w) :: writeByte m a v

/-- A multi-byte write: single-byte writes at ascending addresses (20_memory.md R52). -/
def writeBytes : List Host.Cell → Nat → List Byte → List Host.Cell
  | m, _, [] => m
  | m, a, v :: vs => writeBytes (writeByte m a v) (a + 1) vs

/-- The first of the `n` addresses from `a` on that the buffer does not have. -/
def firstAbsent (m : List Host.Cell) : Nat → Nat → Option Nat
  | _, 0 => none
  | a, n + 1 => if (readByte m a).isNone then some a else firstAbsent m (a + 1) n

/-- The bytes of the buffer as the codec reads them. Used only under `State.onRange`, which has made sure that the
address is there, so the default is never read. -/
def byteAt (m : List Host.Cell) (a : Nat) : Byte := (readByte m a).getD 0

/-- The one guard of every access to FBUF: the access to `n` bytes from `a` on goes ahead where the buffer has them
all, and faults otherwise (20_memory.md R53; log 2). -/
def State.onRange (s : State) (a n : Nat) (access : Host.Outcome State Fault Refusal) :
    Host.Outcome State Fault Refusal :=
  match firstAbsent s.fbuf a n with
  | none => access
  | some missing => .fault (.noSuchAddress missing)

/-- `raise E(info)` (00_scope.md R7): ERR and ERRF take the error's code and detail, and nothing else is written. There
is no trap, no saved state and no return (60_exceptions.md R182, R183). -/
def State.raise (s : State) (e : CmdError) : State :=
  { s with err := e.code, errf := e.detail }

/-- `ok()` (00_scope.md R7): ERR and ERRF take 0. -/
def State.ok (s : State) : State := { s with err := 0, errf := 0 }

/-- `RES <- value; RESV <- valid` (10_state.md R31). -/
def State.setResult (s : State) (value : Word) (valid : Bool) : State :=
  { s with res := value, resv := valid }

/-- Writes `bytes` to FBUF from address 0 on and sets FLEN to `len`, as ENC and HDR do (10_state.md R29). -/
def State.putFrame (s : State) (bytes : List Byte) (len : Nat) : State :=
  { s with fbuf := writeBytes s.fbuf 0 bytes, flen := BitVec.ofNat 5 len }

/-- `for k in 0 .. NF(t)-1: FV[t][k] <- 0x0000; V[t][k] <- 0` (41_frame_fields.md R140). -/
def State.clearFrame (s : State) (t : FrameType) : State :=
  s.setFrame t (Vector.replicate t.fieldCount .unset)

/-- `for k in 0 .. NF(t)-1: FV[t][k] <- u(k); V[t][k] <- 1` (40_codec.md R111 step 5). -/
def State.populate (s : State) (t : FrameType) (u : Vector Half t.fieldCount) : State :=
  s.setFrame t (Vector.ofFn fun (k : Fin t.fieldCount) => ⟨u[k], true⟩)

/-- The reset event (70_reset_and_hazards.md R200): every piece of state takes its reset value, and FBUF takes a new
draw. The policy parameters and what the host does next are not the block's state and stay (log 8). -/
def State.takeReset (s : State) : State :=
  { State.reset with
    fbuf := drawnBuffer (s.resets + 1), policy := s.policy, resets := s.resets + 1, inputs := s.inputs }

/-- What the host reads at the output port, at any time and without a command (10_state.md R31, R32). -/
structure Outputs where
  res : Word
  resv : Bool
  err : BitVec 3
  errf : BitVec 4
deriving DecidableEq, Repr

/-- The output port (10_state.md R31, R32). -/
def State.outputs (s : State) : Outputs := ⟨s.res, s.resv, s.err, s.errf⟩

end Sys2Proof.Machine
end

