-- ==== Sys2Proof/Machine/Buffer.lean ====
section
/-! DEFINITION. The frame buffer commands WRB, RDB, SETLEN and GETLEN (42_buffer.md R160 to R163). -/

namespace Sys2Proof.Machine

/-- WRB (42_buffer.md R160). -/
def execWrb (baddr : BitVec 4) (imm8 : Byte) (s : State) : Host.Outcome State Fault Refusal :=
  s.onRange (byteAddress baddr) 1 (.next { s with fbuf := writeByte s.fbuf (byteAddress baddr) imm8 }.ok)

/-- RDB (42_buffer.md R161). -/
def execRdb (baddr : BitVec 4) (s : State) : Host.Outcome State Fault Refusal :=
  s.onRange (byteAddress baddr) 1
    (.next (s.setResult ((byteAt s.fbuf (byteAddress baddr)).setWidth 32) true).ok)

/-- SETLEN (42_buffer.md R162). A length above 16 is an illegal command, and FLEN stays (30_encoding.md R74; log 7). -/
def execSetlen (len5 : BitVec 5) (s : State) : Host.Outcome State Fault Refusal :=
  if len5.toNat ≤ 16 then .next { s with flen := len5 }.ok else .next (s.raise .illegalCommand)

/-- GETLEN (42_buffer.md R163). -/
def execGetlen (s : State) : Host.Outcome State Fault Refusal :=
  .next (s.setResult (s.flen.setWidth 32) true).ok

end Sys2Proof.Machine
end

