-- ==== Sys2Proof/Machine/Frame.lean ====
section
/-! DEFINITION. The frame formats (30_encoding.md R79 to R88): header constants, payload layouts, packing and unpacking,
and the checks the codec makes with them (40_codec.md R110, R111). -/

namespace Sys2Proof.Machine

open Sys2Proof.Config

/-- `SYNC(t)`: 0xAA for a type the controller sends, 0x55 for one the device sends (30_encoding.md R80). -/
def syncByte : FrameType → Byte
  | .control => 0xAA
  | .status => 0x55
  | .diagSend => 0xAA
  | .diagRec => 0x55

/-- `ID(t)`, the type identifier (30_encoding.md R80). -/
def typeId : FrameType → Byte
  | .control => 0x30
  | .status => 0x31
  | .diagSend => 0x3C
  | .diagRec => 0x3D

/-- `N(t)`, the payload length in bytes (30_encoding.md R80). -/
def payloadLength : FrameType → Nat
  | .control => 7
  | .status => 6
  | .diagSend => 8
  | .diagRec => 8

/-- `L(t) = 3 + N(t)` (30_encoding.md R81). -/
def frameLength (t : FrameType) : Nat := 3 + payloadLength t

/-- The fixed header of a type: sync, type identifier, declared payload length (30_encoding.md R79, R80). -/
def header (t : FrameType) : Vector Byte 3 := #v[syncByte t, typeId t, BitVec.ofNat 8 (payloadLength t)]

/-- The frame type a reader of wire bytes names by byte 1 (30_encoding.md R82). FCODEC itself never dispatches on it. -/
def typeOfId (b : Byte) : Option FrameType :=
  if b = 0x30 then some .control
  else if b = 0x31 then some .status
  else if b = 0x3C then some .diagSend
  else if b = 0x3D then some .diagRec
  else none

/-- `x[7:0]`, the byte at the lower address of an s16 field (20_memory.md R55, R57). -/
def lowByte (x : Half) : Byte := x.extractLsb' 0 8

/-- `x[15:8]`, the byte at the higher address of an s16 field (20_memory.md R55, R57). -/
def highByte (x : Half) : Byte := x.extractLsb' 8 8

/-- `x[n-1:0]`, the bits a field of packed width `n` occupies (30_encoding.md R87). -/
def lowBits (n : Nat) (x : Half) : BitVec n := x.extractLsb' 0 n

/-- `packC` (30_encoding.md R83): in the shared byte the first-listed field is the most significant (20_memory.md R56). -/
def packControl (f : Vector Half 7) : List Byte :=
  [lowByte f[0], highByte f[0], lowByte f[1], highByte f[1], lowByte f[2], 0x00,
   (0 : BitVec 3) ++ lowBits 1 f[3] ++ lowBits 1 f[4] ++ lowBits 1 f[5] ++ lowBits 2 f[6]]

/-- `packS` (30_encoding.md R84). -/
def packStatus (f : Vector Half 9) : List Byte :=
  [lowByte f[0], highByte f[0],
   (0 : BitVec 2) ++ lowBits 1 f[1] ++ lowBits 1 f[2] ++ lowBits 1 f[3] ++ lowBits 1 f[4] ++ lowBits 2 f[5],
   lowByte f[6], lowByte f[7], lowByte f[8]]

/-- `packD` (30_encoding.md R85). -/
def packDiag (f : Vector Half 8) : List Byte :=
  [lowByte f[0], lowByte f[1], lowByte f[2], lowByte f[3], lowByte f[4], lowByte f[5], lowByte f[6], lowByte f[7]]

/-- `pack(t)` (30_encoding.md R86, R87). -/
def pack : (t : FrameType) → Vector Half t.fieldCount → List Byte
  | .control, f => packControl f
  | .status, f => packStatus f
  | .diagSend, f => packDiag f
  | .diagRec, f => packDiag f

/-- `unpackC` (30_encoding.md R83). -/
def unpackControl (p : Nat → Byte) : Vector Half 7 :=
  #v[p 1 ++ p 0, p 3 ++ p 2, (p 4).setWidth 16,
     ((p 6).extractLsb' 4 1).setWidth 16, ((p 6).extractLsb' 3 1).setWidth 16, ((p 6).extractLsb' 2 1).setWidth 16,
     ((p 6).extractLsb' 0 2).setWidth 16]

/-- `unpackS` (30_encoding.md R84). -/
def unpackStatus (p : Nat → Byte) : Vector Half 9 :=
  #v[p 1 ++ p 0,
     ((p 2).extractLsb' 5 1).setWidth 16, ((p 2).extractLsb' 4 1).setWidth 16, ((p 2).extractLsb' 3 1).setWidth 16,
     ((p 2).extractLsb' 2 1).setWidth 16, ((p 2).extractLsb' 0 2).setWidth 16,
     (p 3).setWidth 16, (p 4).setWidth 16, (p 5).setWidth 16]

/-- `unpackD` (30_encoding.md R85). -/
def unpackDiag (p : Nat → Byte) : Vector Half 8 :=
  #v[(p 0).setWidth 16, (p 1).setWidth 16, (p 2).setWidth 16, (p 3).setWidth 16,
     (p 4).setWidth 16, (p 5).setWidth 16, (p 6).setWidth 16, (p 7).setWidth 16]

/-- `unpack(t, P)` (30_encoding.md R86, R87); `p` gives payload byte `p` of the input. -/
def unpack : (t : FrameType) → (Nat → Byte) → Vector Half t.fieldCount
  | .control, p => unpackControl p
  | .status, p => unpackStatus p
  | .diagSend, p => unpackDiag p
  | .diagRec, p => unpackDiag p

/-- The number of pad bits of a type (30_encoding.md R83, R84, R85). -/
def padWidth : FrameType → Nat
  | .control => 11
  | .status => 2
  | .diagSend => 0
  | .diagRec => 0

/-- `padbits` (30_encoding.md R83, R84, R85). -/
def padBits : (t : FrameType) → (Nat → Byte) → BitVec (padWidth t)
  | .control, p => p 5 ++ (p 6).extractLsb' 5 3
  | .status, p => (p 2).extractLsb' 6 2
  | .diagSend, _ => 0
  | .diagRec, _ => 0

/-- `FV[t][*]` of a register set. -/
def fieldValues {n : Nat} (fs : Vector FieldReg n) : Vector Half n :=
  Vector.ofFn fun (k : Fin n) => fs[k].fv

/-- The bytes of an encoded frame: header and packed payload (40_codec.md R110). -/
def frameBytes (t : FrameType) (fs : Vector FieldReg t.fieldCount) : List Byte :=
  (header t).toList ++ pack t (fieldValues fs)

/-- ENC's check of one field: unset before range (40_codec.md R110, 60_exceptions.md R184). -/
def fieldError (kind : FieldKind) (r : FieldReg) (k : Nat) : Option CmdError :=
  if r.v = false then some (.encUnset k)
  else if legal kind r.fv = false then some (.encRange k)
  else none

/-- ENC's error: that of the first failing field in ascending FIDX (40_codec.md R110, 60_exceptions.md R184). -/
def encodeError (t : FrameType) (fs : Vector FieldReg t.fieldCount) : Option CmdError :=
  (List.finRange t.fieldCount).findSome? fun (k : Fin t.fieldCount) => fieldError (kinds t)[k] fs[k] k

/-- DEC's step 2 (40_codec.md R111): the first header byte that differs, or under `LENGTH_ONLY` byte 2 alone. -/
def headerError (c : HeaderCheck) (t : FrameType) (b : Nat → Byte) : Option CmdError :=
  match c with
  | .all => (List.finRange 3).findSome? fun (i : Fin 3) => if b i = (header t)[i] then none else some (.decHeader i)
  | .lengthOnly => if b 2 = (header t)[2] then none else some (.decHeader 2)

/-- DEC's step 3 (40_codec.md R111): under `REJECT`, the first enumerated field that holds no member. -/
def enumError (c : EnumDecodeCheck) (t : FrameType) (u : Vector Half t.fieldCount) : Option CmdError :=
  match c with
  | .reject =>
    (List.finRange t.fieldCount).findSome? fun (k : Fin t.fieldCount) =>
      if (kinds t)[k].isEnum && !legal (kinds t)[k] u[k] then some (.decValue k) else none
  | .acceptRaw => none

/-- DEC's step 4 (40_codec.md R111): under `REJECT_NONZERO`, `DecValue(15)` where a pad bit is 1. -/
def padError (c : PadDecodeCheck) (t : FrameType) (p : Nat → Byte) : Option CmdError :=
  match c with
  | .ignore => none
  | .rejectNonzero => if padBits t p = 0 then none else some (.decValue 15)

/-- Steps 2 to 4 of DEC on the frame bytes `b` (40_codec.md R111): the first error in step order, or the values. -/
def decodeFrame (policy : Policy) (t : FrameType) (b : Nat → Byte) : Except CmdError (Vector Half t.fieldCount) :=
  match headerError policy.header t b with
  | some e => .error e
  | none =>
    match enumError policy.enums t (unpack t fun p => b (3 + p)) with
    | some e => .error e
    | none =>
      match padError policy.pads t fun p => b (3 + p) with
      | some e => .error e
      | none => .ok (unpack t fun p => b (3 + p))

/-- `DECcheck(t)` (41_frame_fields.md R143): steps 1 to 4 of 40_codec.md R111, which write nothing. FBUF is read only
after the length check passes (20_memory.md R51). `commit` says what the command does with the answer. -/
def State.decodeCheck (s : State) (t : FrameType)
    (commit : Except CmdError (Vector Half t.fieldCount) → Host.Outcome State Fault Refusal) :
    Host.Outcome State Fault Refusal :=
  if s.flen.toNat = frameLength t then
    s.onRange 0 (frameLength t) (commit (decodeFrame s.policy t (byteAt s.fbuf)))
  else commit (.error .decLength)

end Sys2Proof.Machine
end

