-- ==== Sys2Proof/Machine/Codec.lean ====
section
/-! DEFINITION. The codec commands ENC, DEC and HDR (40_codec.md R110 to R112). -/

namespace Sys2Proof.Machine

/-- ENC (40_codec.md R110): every field is checked before the first write; then header and payload go to
FBUF[0..L(t)-1] and FLEN takes L(t). -/
def execEnc (t : FrameType) (s : State) : Host.Outcome State Fault Refusal :=
  match encodeError t (s.frame t) with
  | some e => .next (s.raise e)
  | none =>
    s.onRange 0 (frameLength t) (.next (s.putFrame (frameBytes t (s.frame t)) (frameLength t)).ok)

/-- DEC (40_codec.md R111): the first error in step order leaves the fields in their prior state; otherwise every field
of the type is written and set. -/
def execDec (t : FrameType) (s : State) : Host.Outcome State Fault Refusal :=
  s.decodeCheck t fun r =>
    match r with
    | .error e => .next (s.raise e)
    | .ok u => .next (s.populate t u).ok

/-- HDR (40_codec.md R112): the type's fixed header to FBUF[0..2], FLEN 3. -/
def execHdr (t : FrameType) (s : State) : Host.Outcome State Fault Refusal :=
  s.onRange 0 3 (.next (s.putFrame (header t).toList 3).ok)

end Sys2Proof.Machine
end

