-- ==== Sys2Proof/WellFormed.lean ====
section
/-! DEFINITION. Which commands the encoding admits: the value checks of 30_encoding.md R73 and R74. -/

namespace Sys2Proof

/-- NEWD exists for Status and DiagRec only: FT[0] = 1 (30_encoding.md R73, R75 (c)). -/
def FrameType.constructible : FrameType → Bool
  | .control => false
  | .status => true
  | .diagSend => false
  | .diagRec => true

/-- The value checks of 30_encoding.md R74: FIDX < NF(FT) for SETF and GETF, LEN5 <= 16 for SETLEN, FT[0] = 1 for NEWD. -/
def Instr.wellFormed : Instr → Bool
  | .clr _ => true
  | .setf t k _ => decide (k.toNat < t.fieldCount)
  | .getf t k => decide (k.toNat < t.fieldCount)
  | .enc _ => true
  | .dec _ => true
  | .newd t => t.constructible
  | .hdr _ => true
  | .wrb _ _ => true
  | .rdb _ => true
  | .setlen n => decide (n.toNat ≤ 16)
  | .getlen => true

end Sys2Proof
end

