-- ==== Sys2Proof/Machine/Fields.lean ====
section
/-! DEFINITION. The frame field commands CLR, SETF, GETF and NEWD (41_frame_fields.md R140 to R143). -/

namespace Sys2Proof.Machine

/-- CLR (41_frame_fields.md R140). -/
def execClr (t : FrameType) (s : State) : Host.Outcome State Fault Refusal :=
  .next (s.clearFrame t).ok

/-- SETF (41_frame_fields.md R141): stores IMM16 raw and marks the field set. A field index the type does not have is
an illegal command (30_encoding.md R74; log 7). -/
def execSetf (t : FrameType) (fidx : BitVec 4) (imm16 : Half) (s : State) : Host.Outcome State Fault Refusal :=
  if h : fidx.toNat < t.fieldCount then
    .next (s.setFrame t ((s.frame t).set fidx.toNat ⟨imm16, true⟩ h)).ok
  else .next (s.raise .illegalCommand)

/-- What GETF puts into RES and RESV (41_frame_fields.md R142): nothing and invalid for an unset field, else the
extended value. -/
def readField (kind : FieldKind) (r : FieldReg) : Word × Bool :=
  if r.v = false then (0, false) else (extendField kind r.fv, true)

/-- GETF (41_frame_fields.md R142). A field index the type does not have is an illegal command, and RES and RESV stay
(30_encoding.md R74; log 7). -/
def execGetf (t : FrameType) (fidx : BitVec 4) (s : State) : Host.Outcome State Fault Refusal :=
  if h : fidx.toNat < t.fieldCount then
    let result := readField (kinds t)[fidx.toNat] (s.frame t)[fidx.toNat]
    .next (s.setResult result.1 result.2).ok
  else .next (s.raise .illegalCommand)

/-- NEWD (41_frame_fields.md R143): checks as DEC does, makes every field of the type unset, and then either raises the
error or populates all fields. Control and DiagSend have no NEWD: an illegal command (30_encoding.md R75 (c); log 7). -/
def execNewd (t : FrameType) (s : State) : Host.Outcome State Fault Refusal :=
  if t.constructible then
    s.decodeCheck t fun r =>
      match r with
      | .error e => .next ((s.clearFrame t).raise e)
      | .ok u => .next ((s.clearFrame t).populate t u).ok
  else .next (s.raise .illegalCommand)

end Sys2Proof.Machine
end

