-- ==== Sys2Proof/Machine/Dispatch.lean ====
section
/-! DEFINITION. One arm per command of 30_encoding.md R73, each a direct call of its meaning. -/

namespace Sys2Proof.Machine

def exec (i : Instr) (s : State) : Host.Outcome State Fault Refusal :=
  match i with
  | .clr ft => Sys2Proof.Machine.execClr ft s
  | .setf ft fidx imm16 => Sys2Proof.Machine.execSetf ft fidx imm16 s
  | .getf ft fidx => Sys2Proof.Machine.execGetf ft fidx s
  | .enc ft => Sys2Proof.Machine.execEnc ft s
  | .dec ft => Sys2Proof.Machine.execDec ft s
  | .newd ft => Sys2Proof.Machine.execNewd ft s
  | .hdr ft => Sys2Proof.Machine.execHdr ft s
  | .wrb baddr imm8 => Sys2Proof.Machine.execWrb baddr imm8 s
  | .rdb baddr => Sys2Proof.Machine.execRdb baddr s
  | .setlen len5 => Sys2Proof.Machine.execSetlen len5 s
  | .getlen => Sys2Proof.Machine.execGetlen s

end Sys2Proof.Machine
end

