-- ==== Sys2Proof/Decode.lean ====
section
/-! DEFINITION. Decoding of command words (30_encoding.md R70 to R75), total on any word and rejecting by name; after it
the encoder, from the same field positions. -/

namespace Sys2Proof

/-- The command format of 30_encoding.md R71: OP : FT : FIDX : RSV : BADDR : IMM16, OP in the most significant bits. -/
def cmdWord (op : BitVec 4) (ft : BitVec 2) (fidx : BitVec 4) (rsv : BitVec 2) (baddr : BitVec 4) (imm : Half) : Word :=
  op ++ ft ++ fidx ++ rsv ++ baddr ++ imm

/-- OP, bits [31:28] (30_encoding.md R71). -/
def opField (w : Word) : BitVec 4 := w.extractLsb' 28 4

/-- FT, bits [27:26] (30_encoding.md R71). -/
def ftField (w : Word) : BitVec 2 := w.extractLsb' 26 2

/-- FIDX, bits [25:22] (30_encoding.md R71). -/
def fidxField (w : Word) : BitVec 4 := w.extractLsb' 22 4

/-- RSV, bits [21:20] (30_encoding.md R71). -/
def rsvField (w : Word) : BitVec 2 := w.extractLsb' 20 2

/-- BADDR, bits [19:16] (30_encoding.md R71). -/
def baddrField (w : Word) : BitVec 4 := w.extractLsb' 16 4

/-- IMM16, bits [15:0] (30_encoding.md R71). -/
def imm16Field (w : Word) : Half := w.extractLsb' 0 16

/-- IMM8 = IMM16[7:0], the byte WRB writes (30_encoding.md R71). -/
def imm8Field (w : Word) : Byte := w.extractLsb' 0 8

/-- LEN5 = IMM16[4:0], the length SETLEN sets (30_encoding.md R71). -/
def len5Field (w : Word) : BitVec 5 := w.extractLsb' 0 5

/-- The frame type with index FT (00_scope.md R5, 30_encoding.md R71). -/
def FrameType.ofIndex (ft : BitVec 2) : FrameType :=
  if ft = 0 then .control else if ft = 1 then .status else if ft = 2 then .diagSend else .diagRec

/-- The index FT of a frame type (00_scope.md R5, 30_encoding.md R71). -/
def FrameType.index : FrameType → BitVec 2
  | .control => 0
  | .status => 1
  | .diagSend => 2
  | .diagRec => 3

/-- The rows of the opcode map by mnemonic (30_encoding.md R73). -/
inductive Opcode where
  | clr
  | setf
  | getf
  | enc
  | dec
  | newd
  | hdr
  | wrb
  | rdb
  | setlen
  | getlen
deriving DecidableEq, Repr

/-- One row of the opcode map: a word is of this row where `(word & mask) == pattern` (30_encoding.md R73). -/
structure OpcodeRow where
  op : Opcode
  mask : Word
  pattern : Word
deriving DecidableEq, Repr

/-- The opcode map of 30_encoding.md R73, row by row. -/
def opcodeMap : List OpcodeRow :=
  [⟨.clr, 0xF3FFFFFF, 0x10000000⟩,
   ⟨.setf, 0xF03F0000, 0x20000000⟩,
   ⟨.getf, 0xF03FFFFF, 0x30000000⟩,
   ⟨.enc, 0xF3FFFFFF, 0x40000000⟩,
   ⟨.dec, 0xF3FFFFFF, 0x50000000⟩,
   ⟨.newd, 0xF7FFFFFF, 0x64000000⟩,
   ⟨.hdr, 0xF3FFFFFF, 0x70000000⟩,
   ⟨.wrb, 0xFFF0FF00, 0x80000000⟩,
   ⟨.rdb, 0xFFF0FFFF, 0x90000000⟩,
   ⟨.setlen, 0xFFFFFFE0, 0xA0000000⟩,
   ⟨.getlen, 0xFFFFFFFF, 0xB0000000⟩]

/-- `(word & mask) == match` of 30_encoding.md R73. -/
def OpcodeRow.selects (r : OpcodeRow) (w : Word) : Bool := w &&& r.mask == r.pattern

/-- The operands of a word of a row (30_encoding.md R72: no operand is scaled, shifted or extended). -/
def operandsOf (op : Opcode) (w : Word) : Instr :=
  match op with
  | .clr => .clr (.ofIndex (ftField w))
  | .setf => .setf (.ofIndex (ftField w)) (fidxField w) (imm16Field w)
  | .getf => .getf (.ofIndex (ftField w)) (fidxField w)
  | .enc => .enc (.ofIndex (ftField w))
  | .dec => .dec (.ofIndex (ftField w))
  | .newd => .newd (.ofIndex (ftField w))
  | .hdr => .hdr (.ofIndex (ftField w))
  | .wrb => .wrb (baddrField w) (imm8Field w)
  | .rdb => .rdb (baddrField w)
  | .setlen => .setlen (len5Field w)
  | .getlen => .getlen

/-- Why a word is no command: the five kinds of 30_encoding.md R75. All of them raise `IllegalCommand(0)`; the names
are the model's (log 9). -/
inductive IllegalWord where
  /-- (a) OP = 0x0 or OP in 0xC..0xF. -/
  | reservedOpcode
  /-- (b) a must-be-zero bit is set. -/
  | mustBeZero
  /-- (c) NEWD with FT = 0 or FT = 2. -/
  | newdType
  /-- (d) SETF or GETF with FIDX >= NF(FT). -/
  | fieldIndex
  /-- (e) SETLEN with LEN5 in 17..31. -/
  | length
deriving DecidableEq, Repr

/-- The name of a word that matches no row (30_encoding.md R75 (a) to (c)). -/
def unmatchedReason (w : Word) : IllegalWord :=
  if opField w = 0 ∨ 0xC ≤ (opField w).toNat then .reservedOpcode
  else if opField w = 6 ∧ (ftField w).getLsbD 0 = false then .newdType
  else .mustBeZero

/-- The value checks of 30_encoding.md R74, made after a row matched. -/
def valueError : Instr → Option IllegalWord
  | .setf t k _ => if t.fieldCount ≤ k.toNat then some .fieldIndex else none
  | .getf t k => if t.fieldCount ≤ k.toNat then some .fieldIndex else none
  | .setlen n => if 16 < n.toNat then some .length else none
  | .clr _ | .enc _ | .dec _ | .newd _ | .hdr _ | .wrb _ _ | .rdb _ | .getlen => none

/-- `decode(w)` of 30_encoding.md R74: the first matching row, then its value check; everything else is illegal. -/
def decode (w : Word) : Except IllegalWord Instr :=
  match opcodeMap.find? (·.selects w) with
  | none => .error (unmatchedReason w)
  | some r =>
    match valueError (operandsOf r.op w) with
    | none => .ok (operandsOf r.op w)
    | some e => .error e

/-- The instruction the decoder reads from the low `nbits` bits of `w`. A command is exactly one 32-bit word
(30_encoding.md R70), so anything longer is none (log 6). -/
def decodeTableWord (nbits w : Nat) : Option Instr :=
  if w % 2 ^ nbits < 2 ^ 32 then
    match decode (BitVec.ofNat 32 (w % 2 ^ nbits)) with
    | .ok i => some i
    | .error _ => none
  else none

/-- The word of a command, from the field positions of 30_encoding.md R71 and the opcodes of R73 (R77 writes the same
words as shifts). -/
def encode : Instr → Word
  | .clr t => cmdWord 1 t.index 0 0 0 0
  | .setf t k x => cmdWord 2 t.index k 0 0 x
  | .getf t k => cmdWord 3 t.index k 0 0 0
  | .enc t => cmdWord 4 t.index 0 0 0 0
  | .dec t => cmdWord 5 t.index 0 0 0 0
  | .newd t => cmdWord 6 t.index 0 0 0 0
  | .hdr t => cmdWord 7 t.index 0 0 0 0
  | .wrb a b => cmdWord 8 0 0 0 a (b.setWidth 16)
  | .rdb a => cmdWord 9 0 0 0 a 0
  | .setlen n => cmdWord 0xA 0 0 0 0 (n.setWidth 16)
  | .getlen => cmdWord 0xB 0 0 0 0 0

/-- The row of the opcode map a command belongs to (30_encoding.md R73). -/
def Instr.opcode : Instr → Opcode
  | .clr _ => .clr
  | .setf _ _ _ => .setf
  | .getf _ _ => .getf
  | .enc _ => .enc
  | .dec _ => .dec
  | .newd _ => .newd
  | .hdr _ => .hdr
  | .wrb _ _ => .wrb
  | .rdb _ => .rdb
  | .setlen _ => .setlen
  | .getlen => .getlen

end Sys2Proof
end

