-- ==== Sys2Proof/Machine/Port.lean ====
section
/-! DEFINITION. The command port: taking the host's next input, and what a word that names no command does
(30_encoding.md R70, R74, R75). -/

namespace Sys2Proof.Machine

/-- The command word with the `nbits` bits of `w` as its low bits (30_encoding.md R70; log 6). -/
def portWord (nbits w : Nat) : Word := BitVec.ofNat 32 (w % 2 ^ nbits)

/-- The host presents a word as its next input; what it does after stays (log 3). -/
def State.present (s : State) (w : Word) : State := { s with inputs := .command w :: s.inputs }

/-- The input is taken: what the host does next is the rest. -/
def State.takeInput (s : State) (rest : List HostInput) : State := { s with inputs := rest }

/-- What an illegal word does (30_encoding.md R74, R75): `IllegalCommand(0)`, whatever the kind. -/
def State.rejectWord (s : State) (_ : IllegalWord) : State := s.raise .illegalCommand

end Sys2Proof.Machine
end

