-- ==== Sys2Proof/Machine/Step.lean ====
section
/-! DEFINITION. One step of FCODEC: one command word, one reset, or idle (00_scope.md R4). -/

namespace Sys2Proof.Machine

/-- One atomic step (00_scope.md R4, 20_memory.md R54). With no input the block is idle and all state persists
(60_exceptions.md R187). A command word is decoded and executed, or is illegal (30_encoding.md R74). A reset sets every
piece of state (70_reset_and_hazards.md R200). Overlapping commands have no step (R203, 93 I7). -/
def step (s : State) : Host.Outcome State Fault Refusal :=
  match s.inputs with
  | [] => .next s
  | .command w :: rest =>
    match Sys2Proof.decode w with
    | .ok i => exec i (s.takeInput rest)
    | .error e => .next ((s.takeInput rest).rejectWord e)
  | .reset :: rest => .next (s.takeInput rest).takeReset
  | .overlapping _ _ :: _ => .fault .overlappingCommands

/-- `s` with the word of `nbits` bits `w` presented on the command port, where the next step takes it (log 3). -/
def State.withFetchWord (s : State) (nbits w : Nat) : State := s.present (portWord nbits w)

end Sys2Proof.Machine
end

