-- ==== Sys2Proof/Machine/Assembler.lean ====
section
/-! DEFINITION. The assembler syntax and the pseudo-instructions (30_encoding.md R77, R78), and the source's wrapper
operations as command sequences (41_frame_fields.md R144). No step uses this file: it says which words the spec's
programs stand for (log 10). -/

namespace Sys2Proof.Machine

/-- `SETB ft.field, true|false` (30_encoding.md R78). -/
def expandSetb (t : FrameType) (fidx : BitVec 4) (b : Bool) : List Instr :=
  [.setf t fidx (if b then 1 else 0)]

/-- The WRB commands of LDFRAME: byte `i` to address `a + i` (30_encoding.md R78). -/
def writeCommands : Nat → List Byte → List Instr
  | _, [] => []
  | a, b :: bs => .wrb (BitVec.ofNat 4 a) b :: writeCommands (a + 1) bs

/-- `LDFRAME b0, ..., b(n-1)` with 1 <= n <= 16 (30_encoding.md R78). -/
def expandLdframe (bs : List Byte) : Option (List Instr) :=
  if 1 ≤ bs.length ∧ bs.length ≤ 16 then
    some (writeCommands 0 bs ++ [.setlen (BitVec.ofNat 5 bs.length)])
  else none

/-- `RDFRAME n` with 1 <= n <= 16 (30_encoding.md R78). -/
def expandRdframe (n : Nat) : Option (List Instr) :=
  if 1 ≤ n ∧ n ≤ 16 then some ((List.range n).map fun a => .rdb (BitVec.ofNat 4 a)) else none

/-- `POLLREQ ft` (30_encoding.md R78). -/
def expandPollreq (t : FrameType) : List Instr := [.hdr t]

/-- The source's frame-type operations (41_frame_fields.md R144). -/
inductive SourceOp where
  | constructEmpty (t : FrameType)
  | constructFromBytes (t : FrameType) (bytes : List Byte)
  | getField (t : FrameType) (fidx : BitVec 4)
  | setField (t : FrameType) (fidx : BitVec 4) (x : Half)
  | toBytes (t : FrameType)
  | fromBytes (t : FrameType) (bytes : List Byte)
  | headerOnly (t : FrameType)
deriving DecidableEq, Repr

/-- The command sequence of a source operation (41_frame_fields.md R144); none where a byte sequence does not fit
LDFRAME, or the type is not constructed from bytes. -/
def SourceOp.commands : SourceOp → Option (List Instr)
  | .constructEmpty t => some [.clr t]
  | .constructFromBytes t bytes =>
    if t.constructible then (expandLdframe bytes).map (· ++ [.newd t]) else none
  | .getField t k => some [.getf t k]
  | .setField t k x => some [.setf t k x]
  | .toBytes t => (expandRdframe (frameLength t)).map (.enc t :: ·)
  | .fromBytes t bytes => (expandLdframe bytes).map (· ++ [.dec t])
  | .headerOnly t => some [.hdr t]

/-- The name of a frame type in the assembler (30_encoding.md R77). -/
def typeOfName (name : String) : Option FrameType :=
  if name = "CTRL" then some .control
  else if name = "STAT" then some .status
  else if name = "DSND" then some .diagSend
  else if name = "DREC" then some .diagRec
  else none

/-- The symbolic constants (30_encoding.md R77). -/
def symbolValue (name : String) : Option Int :=
  if name = "STOP" ∨ name = "POSITION_CTRL" ∨ name = "OPERATING" ∨ name = "false" then some 0
  else if name = "CLOCKWISE" ∨ name = "SPEED_CTRL" ∨ name = "ERROR" ∨ name = "true" then some 1
  else if name = "ANTI_CLOCKWISE" then some 3
  else none

/-- What stands before a comment (30_encoding.md R77: `;` starts a comment). -/
def beforeComment : List Char → List Char
  | [] => []
  | c :: cs => if c = ';' then [] else c :: beforeComment cs

/-- The words of a line, separated by blanks and commas; `acc` is the word being read, backwards. -/
def wordsFrom : List Char → List Char → List (List Char)
  | acc, [] => if acc = [] then [] else [acc.reverse]
  | acc, c :: cs =>
    if c = ' ' ∨ c = '\t' ∨ c = ',' then
      if acc = [] then wordsFrom [] cs else acc.reverse :: wordsFrom [] cs
    else wordsFrom (c :: acc) cs

/-- The value of a digit. -/
def digitValue (c : Char) : Option Nat :=
  if '0' ≤ c ∧ c ≤ '9' then some (c.toNat - '0'.toNat)
  else if 'a' ≤ c ∧ c ≤ 'f' then some (c.toNat - 'a'.toNat + 10)
  else if 'A' ≤ c ∧ c ≤ 'F' then some (c.toNat - 'A'.toNat + 10)
  else none

/-- The value of a row of digits to a base, after the digits whose value is `acc`. -/
def digitsValue (base : Nat) : Nat → List Char → Option Nat
  | acc, [] => some acc
  | acc, c :: cs =>
    match digitValue c with
    | some d => if d < base then digitsValue base (acc * base + d) cs else none
    | none => none

/-- A decimal or `0x` hexadecimal natural number (30_encoding.md R77). -/
def natOf : List Char → Option Nat
  | [] => none
  | '0' :: 'x' :: d :: ds => digitsValue 16 0 (d :: ds)
  | ds => digitsValue 10 0 ds

/-- An immediate: an integer or a symbolic constant (30_encoding.md R77). -/
def immediateOf : List Char → Option Int
  | '-' :: ds => (natOf ds).map fun n => -(n : Int)
  | ds => match natOf ds with
    | some n => some n
    | none => symbolValue (String.ofList ds)

/-- A SETF immediate lies in -32768..65535; a negative value is its 16-bit two's complement (30_encoding.md R77). -/
def setfImmediate (n : Int) : Option Half :=
  if -32768 ≤ n ∧ n ≤ 65535 then some (BitVec.ofInt 16 n) else none

/-- A number that fits an operand field of `w` bits. DESIGN CHOICE: a number only, never a symbolic constant (log 10). -/
def operandOf (w : Nat) (ds : List Char) : Option (BitVec w) :=
  match natOf ds with
  | some n => if n < 2 ^ w then some (BitVec.ofNat w n) else none
  | none => none

/-- The name of a frame type, as a word of a line. -/
def frameOf (ds : List Char) : Option FrameType := typeOfName (String.ofList ds)

/-- A field, `<type>.<name>` or `<type>[<FIDX>]` (30_encoding.md R77); `acc` is the type's name, backwards. -/
def fieldFrom : List Char → List Char → Option (FrameType × BitVec 4)
  | _, [] => none
  | acc, c :: cs =>
    if c = '.' then
      match frameOf acc.reverse with
      | some t => ((fieldNames t).toList.findIdx? (· == String.ofList cs)).map fun k => (t, BitVec.ofNat 4 k)
      | none => none
    else if c = '[' then
      match frameOf acc.reverse, cs.reverse with
      | some t, ']' :: ds => (operandOf 4 ds.reverse).map fun k => (t, k)
      | _, _ => none
    else fieldFrom (c :: acc) cs

/-- The bytes of an LDFRAME line. -/
def bytesOf : List (List Char) → Option (List Byte)
  | [] => some []
  | w :: ws =>
    match operandOf 8 w, bytesOf ws with
    | some b, some bs => some (b :: bs)
    | _, _ => none

/-- `true` or `false`, the operand of SETB (30_encoding.md R78). -/
def boolOf (ds : List Char) : Option Bool :=
  if String.ofList ds = "true" then some true else if String.ofList ds = "false" then some false else none

/-- The commands of a line with one operand that is a frame type (30_encoding.md R77, R78). -/
def frameCommand (name : String) (t : FrameType) : Option (List Instr) :=
  if name = "CLR" then some [.clr t]
  else if name = "ENC" then some [.enc t]
  else if name = "DEC" then some [.dec t]
  else if name = "NEWD" then if t.constructible then some [.newd t] else none
  else if name = "HDR" then some [.hdr t]
  else if name = "POLLREQ" then some (expandPollreq t)
  else none

/-- The commands of a line whose first operand is a field (30_encoding.md R77, R78). -/
def fieldCommand (name : String) (t : FrameType) (k : BitVec 4) (operands : List (List Char)) : Option (List Instr) :=
  match operands with
  | [] => if name = "GETF" then some [.getf t k] else none
  | [v] =>
    if name = "SETF" then ((immediateOf v).bind setfImmediate).map fun x => [.setf t k x]
    else if name = "SETB" then (boolOf v).map (expandSetb t k)
    else none
  | _ => none

/-- The commands of a line of the frame buffer (30_encoding.md R77, R78). DESIGN CHOICE: the bytes of WRB and LDFRAME
and the `n` of SETLEN are numbers only, though R71 calls WRB's and SETLEN's uses of the immediate too; R77's table writes
`imm` at SETF alone, so a symbolic constant is read there alone (log 10). -/
def bufferCommand (name : String) (operands : List (List Char)) : Option (List Instr) :=
  match operands with
  | [] => if name = "GETLEN" then some [.getlen] else none
  | [x] =>
    if name = "RDB" then (operandOf 4 x).map fun a => [.rdb a]
    else if name = "SETLEN" then (operandOf 5 x).map fun n => [.setlen n]
    else if name = "RDFRAME" then (natOf x).bind expandRdframe
    else if name = "LDFRAME" then (bytesOf [x]).bind expandLdframe
    else none
  | x :: y :: rest =>
    if name = "LDFRAME" then (bytesOf (x :: y :: rest)).bind expandLdframe
    else if name = "WRB" ∧ rest = [] then
      match operandOf 4 x, operandOf 8 y with
      | some a, some b => some [.wrb a b]
      | _, _ => none
    else none

/-- The commands of one line of the assembler (30_encoding.md R77, R78); a blank line has none. -/
def assembleCommands (line : String) : Option (List Instr) :=
  match wordsFrom [] (beforeComment line.toList) with
  | [] => some []
  | [name] => bufferCommand (String.ofList name) []
  | name :: x :: rest =>
    match frameOf x, fieldFrom [] x with
    | some t, _ => if rest = [] then frameCommand (String.ofList name) t else none
    | none, some (t, k) => fieldCommand (String.ofList name) t k rest
    | none, none => bufferCommand (String.ofList name) (x :: rest)

/-- The words of one line of the assembler (30_encoding.md R77). -/
def assemble (line : String) : Option (List Word) := (assembleCommands line).map (·.map encode)

end Sys2Proof.Machine
end

