-- ==== Sys2Proof/Safety.lean ====
section
/-! DEFINITION. What the statements speak of: the invariant of every reachable state, what a command leaves alone
(10_state.md R35), the host's duty and safe runs. -/

namespace Sys2Proof.Machine

/-- The pairs of ERR and ERRF that 60_exceptions.md R181 allows: a field index of ENC (at most 8), 0 for the length, a
header byte 0..2, an enumerated field (5 or 6) or 15 for the pads, 0 for an illegal command and for no error; never
code 7. -/
def errorPairLegal (err : BitVec 3) (errf : BitVec 4) : Bool :=
  if err = 1 ∨ err = 2 then decide (errf.toNat ≤ 8)
  else if err = 4 then decide (errf.toNat ≤ 2)
  else if err = 5 then decide (errf = 5 ∨ errf = 6 ∨ errf = 15)
  else if err = 7 then false
  else decide (errf = 0)

/-- What holds of every state a run reaches (log 11). -/
structure State.Inv (s : State) : Prop where
  /-- FBUF has its 16 bytes (20_memory.md R50). -/
  buffer : Memory.wf s.fbuf
  /-- An unset field holds 0 (10_state.md R27). -/
  unset : ∀ (t : FrameType) (k : Fin t.fieldCount), (s.frame t)[k].v = false → (s.frame t)[k].fv = 0
  /-- FLEN is 0..16 (10_state.md R29). -/
  length : s.flen.toNat ≤ 16
  /-- ERR and ERRF hold a pair of 60_exceptions.md R181. -/
  errors : errorPairLegal s.err s.errf = true
  /-- Where RESV is 0, RES is 0 (10_state.md R31, R34; 41_frame_fields.md R142). -/
  result : s.resv = false → s.res = 0

/-- Every field register and valid flag reads as before. -/
def SameFields (s s' : State) : Prop := ∀ t : FrameType, s'.frame t = s.frame t

/-- Every field register and valid flag of the types other than `t` reads as before. -/
def SameFieldsBut (t : FrameType) (s s' : State) : Prop := ∀ u : FrameType, u ≠ t → s'.frame u = s.frame u

/-- Every byte of FBUF reads as before. -/
def SameBuffer (s s' : State) : Prop := ∀ a : Nat, readByte s'.fbuf a = readByte s.fbuf a

/-- Every byte of FBUF outside the `n` bytes from address `a` on reads as before. -/
def SameBufferBut (a n : Nat) (s s' : State) : Prop :=
  ∀ x : Nat, (x < a ∨ a + n ≤ x) → readByte s'.fbuf x = readByte s.fbuf x

/-- RES and RESV are as before. -/
def SameResult (s s' : State) : Prop := s'.res = s.res ∧ s'.resv = s.resv

/-- The model's own fields are as before: no command writes them. -/
def SameModel (s s' : State) : Prop := s'.policy = s.policy ∧ s'.resets = s.resets ∧ s'.inputs = s.inputs

/-- ERR and ERRF of a command that completed (10_state.md R32). -/
def NoError (s : State) : Prop := s.err = 0 ∧ s.errf = 0

/-- Only ERR and ERRF differ, and they hold `code` and `detail`: what a failing command leaves
(60_exceptions.md R182). -/
def OnlyError (code : BitVec 3) (detail : BitVec 4) (s s' : State) : Prop :=
  SameFields s s' ∧ SameBuffer s s' ∧ s'.flen = s.flen ∧ SameResult s s' ∧ SameModel s s' ∧
    s'.err = code ∧ s'.errf = detail

/-- Every field of `t` is unset and 0 (41_frame_fields.md R140). -/
abbrev AllUnset (t : FrameType) (s : State) : Prop :=
  ∀ k : Fin t.fieldCount, (s.frame t)[k].v = false ∧ (s.frame t)[k].fv = 0

/-- Every field of `t` is set and legal: what ENC requires (40_codec.md R110, R113). -/
abbrev AllLegal (t : FrameType) (s : State) : Prop :=
  ∀ k : Fin t.fieldCount, (s.frame t)[k].v = true ∧ legal (kinds t)[k] (s.frame t)[k].fv = true

/-- The payload bytes DEC and NEWD take from FBUF: payload byte `p` is frame byte `3 + p` (20_memory.md R55). -/
def payloadOf (s : State) (p : Nat) : Byte := byteAt s.fbuf (3 + p)

/-- Steps 1 and 2 of 40_codec.md R111 pass: the length, and the header bytes the policy compares. -/
abbrev HeaderAccepted (t : FrameType) (s : State) : Prop :=
  s.flen.toNat = frameLength t ∧
    (s.policy.header = .all → ∀ i : Fin 3, byteAt s.fbuf i = (header t)[i]) ∧
    (s.policy.header = .lengthOnly → byteAt s.fbuf 2 = (header t)[2])

/-- Step 3 of 40_codec.md R111 passes: under `REJECT` every enumerated field holds a member. -/
abbrev EnumsAccepted (t : FrameType) (s : State) : Prop :=
  s.policy.enums = .reject → ∀ k : Fin t.fieldCount,
    (kinds t)[k].isEnum = true → legal (kinds t)[k] (unpack t (payloadOf s))[k] = true

/-- Step 4 of 40_codec.md R111 passes: under `REJECT_NONZERO` every pad bit is 0. -/
abbrev PadsAccepted (t : FrameType) (s : State) : Prop :=
  s.policy.pads = .rejectNonzero → padBits t (payloadOf s) = 0

/-- The bits of frame byte `i` that are not pad bits (30_encoding.md R83, R84): a frame with its pad bits cleared is the
frame under this mask (40_codec.md R113). -/
def keptBits (t : FrameType) (i : Nat) : Byte :=
  match t with
  | .control => if i = 8 then 0x00 else if i = 9 then 0x1F else 0xFF
  | .status => if i = 5 then 0x3F else 0xFF
  | .diagSend => 0xFF
  | .diagRec => 0xFF

/-- Commands executed one after the other, each on the state the one before left; stops at a fault or a refusal. -/
def runCommands : List Instr → State → Host.Outcome State Fault Refusal
  | [], s => .next s
  | i :: is, s =>
    match exec i s with
    | .next s' => runCommands is s'
    | .fault r => .fault r
    | .refused r => .refused r

/-- An input that keeps the host's duty: no command while another is in progress (70_reset_and_hazards.md R203). -/
def HostInput.dutiful : HostInput → Bool
  | .command _ => true
  | .reset => true
  | .overlapping _ _ => false

/-- The host keeps its duty in all it does next (70_reset_and_hazards.md R203, 93 I7). -/
abbrev HostDuty (s : State) : Prop := ∀ x ∈ s.inputs, x.dutiful = true

/-- A run of steps from one state to another. -/
inductive Reaches : State → State → Prop where
  | refl (s : State) : Reaches s s
  | tail {s u v : State} (h : Reaches s u) (hs : step u = .next v) : Reaches s v

/-- A state from which every run goes on for ever: no fault and no refusal. -/
def SafeFrom (s : State) : Prop := ∀ u : State, Reaches s u → ∃ v, step u = .next v

end Sys2Proof.Machine
end

