-- ==== Sys2Proof/Certificates/Slice0/Obligations.lean ====
section
/-! DEFINITION. The statements for the provers, from the numbered rules of spec/. Every statement about the frame
buffer's bytes has the premise that the buffer is in its canonical form, which `StepKeepsInvariant` rules in. -/

open Sys2Proof Sys2Proof.Machine

/-! ### Reset and the step -/

/-- 10_state.md R34: what every piece of the spec's state holds right after reset. -/
def Obligations.ResetLeavesStatedValues : Prop :=
  (∀ t : FrameType, AllUnset t State.reset) ∧
  (∀ a : Nat, a < 16 → readByte State.reset.fbuf a = some (Config.fbufDraw 0 a)) ∧
  State.reset.flen = 0 ∧ State.reset.res = 0 ∧ State.reset.resv = false ∧ State.reset.err = 0 ∧ State.reset.errf = 0

/-- 70_reset_and_hazards.md R200: a reset brings every piece of the spec's state to its reset value, whatever it held;
each FBUF byte is a draw of its own. That reset is an input between commands is the model's (logs 3 and 8). -/
def Obligations.ResetEventRestoresEverything : Prop :=
  ∀ (s : State) (rest : List HostInput), s.inputs = .reset :: rest →
    ∃ s' : State, step s = .next s' ∧ (∀ t : FrameType, AllUnset t s') ∧
      (∀ a : Nat, a < 16 → readByte s'.fbuf a = some (Config.fbufDraw (s.resets + 1) a)) ∧
      s'.flen = 0 ∧ s'.res = 0 ∧ s'.resv = false ∧ s'.err = 0 ∧ s'.errf = 0

/-- 00_scope.md R4, 30_encoding.md R74: where the word on the command port decodes to a command, the step is that
command's `exec` on the state with the input taken, and the command is well-formed. That the port is the head of a list
of inputs is the model's (log 3). -/
def Obligations.StepRunsDecodedCommand : Prop :=
  ∀ (s : State) (w : Word) (rest : List HostInput) (i : Instr), s.inputs = .command w :: rest → decode w = .ok i →
    step s = exec i (s.takeInput rest) ∧ i.wellFormed = true

/-- 30_encoding.md R74, R75; 60_exceptions.md R182: a word that names no command writes ERR 6 and ERRF 0 and nothing
else. That the port is the head of a list of inputs is the model's (log 3). -/
def Obligations.IllegalWordWritesOnlyTheError : Prop :=
  ∀ (s : State) (w : Word) (rest : List HostInput) (e : IllegalWord), s.inputs = .command w :: rest →
    decode w = .error e → ∃ s' : State, step s = .next s' ∧ OnlyError 6 0 (s.takeInput rest) s'

/-- 60_exceptions.md R187: between commands the block is idle and all state persists. That idling is a step is the
model's (log 3). -/
def Obligations.IdleKeepsAllState : Prop :=
  ∀ s : State, s.inputs = [] → step s = .next s

/-- 70_reset_and_hazards.md R203, 93 I7: a command issued while another is in progress has no step; the named fault is
the model's form of it (log 4). -/
def Obligations.OverlapHasNoStep : Prop :=
  ∀ (s : State) (w w' : Word) (rest : List HostInput), s.inputs = .overlapping w w' :: rest →
    step s = .fault .overlappingCommands

/-- Every step takes one input of the host's and leaves the policy parameters alone: the model's form of 00_scope.md R4
and R5 (logs 3 and 5). -/
def Obligations.StepTakesOneInputAndKeepsPolicy : Prop :=
  ∀ s s' : State, step s = .next s' → s'.inputs = s.inputs.tail ∧ s'.policy = s.policy

/-! ### Decoding and encoding -/

/-- The must-be-zero bits of 30_encoding.md R73, by opcode, are not all zero. -/
def mustBeZeroBitSet (w : Word) : Prop :=
  ((opField w = 1 ∨ opField w = 4 ∨ opField w = 5 ∨ opField w = 6 ∨ opField w = 7) ∧ w.extractLsb' 0 26 ≠ 0) ∨
  (opField w = 2 ∧ w.extractLsb' 16 6 ≠ 0) ∨
  (opField w = 3 ∧ w.extractLsb' 0 22 ≠ 0) ∨
  (opField w = 8 ∧ (w.extractLsb' 20 8 ≠ 0 ∨ w.extractLsb' 8 8 ≠ 0)) ∨
  (opField w = 9 ∧ (w.extractLsb' 20 8 ≠ 0 ∨ w.extractLsb' 0 16 ≠ 0)) ∨
  (opField w = 10 ∧ w.extractLsb' 5 23 ≠ 0) ∨
  (opField w = 11 ∧ w.extractLsb' 0 28 ≠ 0)

/-- The illegal words of 30_encoding.md R75, (a) to (e), bit by bit. -/
def illegalByRule (w : Word) : Prop :=
  (opField w = 0 ∨ 12 ≤ (opField w).toNat) ∨
  mustBeZeroBitSet w ∨
  (opField w = 6 ∧ (ftField w = 0 ∨ ftField w = 2)) ∨
  ((opField w = 2 ∨ opField w = 3) ∧ (FrameType.ofIndex (ftField w)).fieldCount ≤ (fidxField w).toNat) ∨
  (opField w = 10 ∧ 17 ≤ (len5Field w).toNat)

/-- 30_encoding.md R75: a word is a command exactly where none of (a) to (e) holds of it. -/
def Obligations.LegalWordsAreExactlyTheOthers : Prop :=
  ∀ w : Word, (∃ i : Instr, decode w = .ok i) ↔ ¬ illegalByRule w

/-- 30_encoding.md R73: "No word matches two rows." -/
def Obligations.NoWordMatchesTwoRows : Prop :=
  ∀ (w : Word) (r r' : OpcodeRow), r ∈ opcodeMap → r' ∈ opcodeMap → r.selects w = true → r'.selects w = true → r = r'

/-- Decoding the word of a well-formed command gives that command back, with every operand at every value. -/
def Obligations.DecodeOfEncode : Prop :=
  ∀ i : Instr, i.wellFormed = true → decode (encode i) = .ok i

/-- Every word that decodes is the word of the command it decodes to, which is well-formed: each command has one word. -/
def Obligations.EncodeOfDecode : Prop :=
  ∀ (w : Word) (i : Instr), decode w = .ok i → encode i = w ∧ i.wellFormed = true

/-- Words of 95_test_vectors.md and 30_encoding.md R73, one of each family, decode to their commands. -/
def Obligations.SpecWordsDecode : Prop :=
  decode 0x10000000 = .ok (.clr .control) ∧ decode 0x20003E80 = .ok (.setf .control 0 16000) ∧
  decode 0x3DC00000 = .ok (.getf .diagRec 7) ∧ decode 0x40000000 = .ok (.enc .control) ∧
  decode 0x54000000 = .ok (.dec .status) ∧ decode 0x6C000000 = .ok (.newd .diagRec) ∧
  decode 0x78000000 = .ok (.hdr .diagSend) ∧ decode 0x800F00A5 = .ok (.wrb 15 0xA5) ∧
  decode 0x90090000 = .ok (.rdb 9) ∧ decode 0xA0000010 = .ok (.setlen 16) ∧ decode 0xB0000000 = .ok .getlen

/-- 30_encoding.md R77: the words of the commands, as the assembler's table writes them. -/
def Obligations.EncodeIsTheAssemblerTable : Prop :=
  ∀ (t : FrameType) (k a : BitVec 4) (x : Half) (b : Byte) (n : BitVec 5),
    let ft : Word := t.index.setWidth 32 <<< 26
    let kf : Word := k.setWidth 32 <<< 22
    encode (.clr t) = 0x10000000 ||| ft ∧
    encode (.setf t k x) = 0x20000000 ||| ft ||| kf ||| x.setWidth 32 ∧
    encode (.getf t k) = 0x30000000 ||| ft ||| kf ∧
    encode (.enc t) = 0x40000000 ||| ft ∧
    encode (.dec t) = 0x50000000 ||| ft ∧
    encode (.newd t) = 0x60000000 ||| ft ∧
    encode (.hdr t) = 0x70000000 ||| ft ∧
    encode (.wrb a b) = 0x80000000 ||| a.setWidth 32 <<< 16 ||| b.setWidth 32 ∧
    encode (.rdb a) = 0x90000000 ||| a.setWidth 32 <<< 16 ∧
    encode (.setlen n) = 0xA0000000 ||| n.setWidth 32 ∧
    encode .getlen = 0xB0000000

/-! ### The frame field commands -/

/-- 41_frame_fields.md R140: CLR completes in every state; every field of the type is unset and 0, and nothing else
changes but ERR and ERRF, which are 0. -/
def Obligations.ClrUnsetsItsType : Prop :=
  ∀ (t : FrameType) (s : State), ∃ s' : State, exec (.clr t) s = .next s' ∧ AllUnset t s' ∧ SameFieldsBut t s s' ∧
    SameBuffer s s' ∧ s'.flen = s.flen ∧ SameResult s s' ∧ SameModel s s' ∧ NoError s'

/-- 41_frame_fields.md R141: SETF completes for every field of the type; the one field holds IMM16 raw and is set,
whatever the value, and nothing else changes but ERR and ERRF. A word with an index the type does not have is
illegal. -/
def Obligations.SetfStoresOneField : Prop :=
  (∀ (t : FrameType) (k : BitVec 4) (x : Half) (s : State), (h : k.toNat < t.fieldCount) →
    ∃ s' : State, exec (.setf t k x) s = .next s' ∧
      (s'.frame t)[k.toNat].fv = x ∧ (s'.frame t)[k.toNat].v = true ∧
      (∀ j : Fin t.fieldCount, j.val ≠ k.toNat → (s'.frame t)[j] = (s.frame t)[j]) ∧ SameFieldsBut t s s' ∧
      SameBuffer s s' ∧ s'.flen = s.flen ∧ SameResult s s' ∧ SameModel s s' ∧ NoError s') ∧
  (∀ (t : FrameType) (k : BitVec 4) (x : Half), t.fieldCount ≤ k.toNat → ∃ e, decode (encode (.setf t k x)) = .error e)

/-- 41_frame_fields.md R142: GETF completes for every field of the type. An unset field gives RES 0 and RESV 0; an s16
field its signed value, every other kind its unsigned value, with RESV 1. Nothing else changes but ERR and ERRF. A word
with an index the type does not have is illegal. -/
def Obligations.GetfReadsOneField : Prop :=
  (∀ (t : FrameType) (k : BitVec 4) (s : State), (h : k.toNat < t.fieldCount) →
    ∃ s' : State, exec (.getf t k) s = .next s' ∧
      ((s.frame t)[k.toNat].v = false → s'.res = 0 ∧ s'.resv = false) ∧
      ((s.frame t)[k.toNat].v = true → (kinds t)[k.toNat] = .s16 →
        s'.res.toInt = (s.frame t)[k.toNat].fv.toInt ∧ s'.resv = true) ∧
      ((s.frame t)[k.toNat].v = true → (kinds t)[k.toNat] ≠ .s16 →
        s'.res.toNat = (s.frame t)[k.toNat].fv.toNat ∧ s'.resv = true) ∧
      SameFields s s' ∧ SameBuffer s s' ∧ s'.flen = s.flen ∧ SameModel s s' ∧ NoError s') ∧
  (∀ (t : FrameType) (k : BitVec 4), t.fieldCount ≤ k.toNat → ∃ e, decode (encode (.getf t k)) = .error e)

/-- 30_encoding.md R76: a value outside the legal set is stored by SETF, GETF returns it, and ENC refuses it with an
encoding error (EncUnset or EncRange, whichever field fails first). -/
def Obligations.IllegalValueIsStoredAndRefusedByEnc : Prop :=
  ∀ (t : FrameType) (k : BitVec 4) (x : Half) (s : State), (h : k.toNat < t.fieldCount) →
    legal (kinds t)[k.toNat] x = false →
    ∃ s1 s2 s3 : State, exec (.setf t k x) s = .next s1 ∧ exec (.getf t k) s1 = .next s2 ∧
      s2.res.toNat = x.toNat ∧ s2.resv = true ∧ exec (.enc t) s1 = .next s3 ∧ (s3.err = 1 ∨ s3.err = 2)

/-- 41_frame_fields.md R143: NEWD completes for Status and DiagRec wherever FBUF has its bytes. Where the checks of DEC
pass, every field of the type takes its unpacked value and is set, and NEWD leaves exactly the state DEC would; where
DEC would report an error, NEWD reports the same one, every field of the type is unset and 0, and nothing else changes.
That a success leaves exactly DEC's state is the spec's own inference ("derived: from 40_codec.md rule R111, which
writes every field"). -/
def Obligations.NewdConstructsFromBytes : Prop :=
  ∀ (t : FrameType) (s : State), t.constructible = true → Memory.wf s.fbuf →
    ∃ d s' : State, exec (.dec t) s = .next d ∧ exec (.newd t) s = .next s' ∧
      (HeaderAccepted t s → EnumsAccepted t s → PadsAccepted t s → s' = d ∧ NoError s' ∧
        ∀ k : Fin t.fieldCount, (s'.frame t)[k].fv = (unpack t (payloadOf s))[k] ∧ (s'.frame t)[k].v = true) ∧
      (d.err ≠ 0 → AllUnset t s' ∧ s'.err = d.err ∧ s'.errf = d.errf ∧ SameFieldsBut t s s' ∧ SameBuffer s s' ∧
        s'.flen = s.flen ∧ SameResult s s' ∧ SameModel s s')

/-- The model's choice (log 7): a command term that the encoding does not admit, a field index or a length out of
range or NEWD of a type without it, raises IllegalCommand and writes nothing else, as its word does. -/
def Obligations.IllFormedCommandIsIllegal : Prop :=
  ∀ (i : Instr) (s : State), i.wellFormed = false → ∃ s' : State, exec i s = .next s' ∧ OnlyError 6 0 s s'

/-! ### The codec commands -/

/-- 30_encoding.md R80: the fixed headers. The spec confirms Control's by a vector of its source and marks the other three
as its own inference ("derived: from the §3 sync-byte definition and the §3 direction column"). -/
def Obligations.HeaderConstants : Prop :=
  header .control = #v[0xAA, 0x30, 0x07] ∧ header .status = #v[0x55, 0x31, 0x06] ∧
  header .diagSend = #v[0xAA, 0x3C, 0x08] ∧ header .diagRec = #v[0x55, 0x3D, 0x08]

/-- 40_codec.md R110: ENC completes wherever FBUF has its bytes. With every field set and legal, FBUF[0..L-1] takes
header and payload and FLEN takes L; otherwise the first failing field in ascending order is reported, unset before
range, and nothing else changes. -/
def Obligations.EncEncodesOrReportsFirstField : Prop :=
  ∀ (t : FrameType) (s : State), Memory.wf s.fbuf → ∃ s' : State, exec (.enc t) s = .next s' ∧
    (AllLegal t s →
      readByte s'.fbuf 0 = some (syncByte t) ∧ readByte s'.fbuf 1 = some (typeId t) ∧
      readByte s'.fbuf 2 = some (BitVec.ofNat 8 (payloadLength t)) ∧
      (∀ p : Nat, p < payloadLength t → readByte s'.fbuf (3 + p) = (pack t (fieldValues (s.frame t)))[p]?) ∧
      SameBufferBut 0 (frameLength t) s s' ∧ s'.flen.toNat = frameLength t ∧ SameFields s s' ∧ SameResult s s' ∧
      SameModel s s' ∧ NoError s') ∧
    (∀ k : Fin t.fieldCount,
      (∀ j : Fin t.fieldCount, j < k → (s.frame t)[j].v = true ∧ legal (kinds t)[j] (s.frame t)[j].fv = true) →
      ((s.frame t)[k].v = false → OnlyError 1 (BitVec.ofNat 4 k) s s') ∧
      ((s.frame t)[k].v = true → legal (kinds t)[k] (s.frame t)[k].fv = false →
        OnlyError 2 (BitVec.ofNat 4 k) s s'))

/-- 30_encoding.md R83: the Control payload, its unpacking and its pad bits, byte by byte. -/
def Obligations.ControlPayloadLayout : Prop :=
  (∀ f : Vector Half 7, (pack .control f).map BitVec.toNat =
    [f[0].toNat % 256, f[0].toNat / 256, f[1].toNat % 256, f[1].toNat / 256, f[2].toNat % 256, 0,
     16 * (f[3].toNat % 2) + 8 * (f[4].toNat % 2) + 4 * (f[5].toNat % 2) + f[6].toNat % 4]) ∧
  (∀ p : Nat → Byte, (unpack .control p).toList.map BitVec.toNat =
    [256 * (p 1).toNat + (p 0).toNat, 256 * (p 3).toNat + (p 2).toNat, (p 4).toNat, (p 6).toNat / 16 % 2,
     (p 6).toNat / 8 % 2, (p 6).toNat / 4 % 2, (p 6).toNat % 4] ∧
    (padBits .control p).toNat = 8 * (p 5).toNat + (p 6).toNat / 32)

/-- 30_encoding.md R84: the Status payload, its unpacking and its pad bits, byte by byte. The bit positions of payload byte 2
are the spec's own inference ("that step is the spec's own", D26). -/
def Obligations.StatusPayloadLayout : Prop :=
  (∀ f : Vector Half 9, (pack .status f).map BitVec.toNat =
    [f[0].toNat % 256, f[0].toNat / 256,
     32 * (f[1].toNat % 2) + 16 * (f[2].toNat % 2) + 8 * (f[3].toNat % 2) + 4 * (f[4].toNat % 2) + f[5].toNat % 4,
     f[6].toNat % 256, f[7].toNat % 256, f[8].toNat % 256]) ∧
  (∀ p : Nat → Byte, (unpack .status p).toList.map BitVec.toNat =
    [256 * (p 1).toNat + (p 0).toNat, (p 2).toNat / 32 % 2, (p 2).toNat / 16 % 2, (p 2).toNat / 8 % 2,
     (p 2).toNat / 4 % 2, (p 2).toNat % 4, (p 3).toNat, (p 4).toNat, (p 5).toNat] ∧
    (padBits .status p).toNat = (p 2).toNat / 64)

/-- 30_encoding.md R85, R86: the payload of both Diag types is field `k` in byte `k`, with no pad. -/
def Obligations.DiagPayloadLayout : Prop :=
  (∀ f : Vector Half 8,
    (pack .diagSend f).map BitVec.toNat = f.toList.map (fun x => x.toNat % 256) ∧
    pack .diagRec f = pack .diagSend f) ∧
  (∀ p : Nat → Byte,
    (unpack .diagSend p).toList.map BitVec.toNat = (List.range 8).map (fun k => (p k).toNat) ∧
    unpack .diagRec p = unpack .diagSend p ∧ padWidth .diagSend = 0 ∧ padWidth .diagRec = 0)

/-- 30_encoding.md R87, which the spec marks as derived from R83 to R86: on legal values packing loses no bit and every pad bit is 0, so that unpacking the packed bytes
gives the values back. -/
def Obligations.PackLosesNothing : Prop :=
  ∀ (t : FrameType) (f : Vector Half t.fieldCount),
    (∀ k : Fin t.fieldCount, legal (kinds t)[k] f[k] = true) →
    (pack t f).length = payloadLength t ∧ unpack t (fun p => (pack t f).getD p 0) = f ∧
    padBits t (fun p => (pack t f).getD p 0) = 0

/-- 40_codec.md R111, with every policy of 00_scope.md R5: DEC completes wherever FBUF has its bytes. The first error in
the order length, header, enumerations, pads is reported and nothing else changes; otherwise every field of the type
takes its unpacked value and is set, and nothing else changes. -/
def Obligations.DecDecodesOrReportsFirstError : Prop :=
  ∀ (t : FrameType) (s : State), Memory.wf s.fbuf → ∃ s' : State, exec (.dec t) s = .next s' ∧
    (s.flen.toNat ≠ frameLength t → OnlyError 3 0 s s') ∧
    (s.flen.toNat = frameLength t → s.policy.header = .all → ∀ i : Fin 3,
      (∀ j : Fin 3, j < i → byteAt s.fbuf j = (header t)[j]) → byteAt s.fbuf i ≠ (header t)[i] →
      OnlyError 4 (BitVec.ofNat 4 i) s s') ∧
    (s.flen.toNat = frameLength t → s.policy.header = .lengthOnly → byteAt s.fbuf 2 ≠ (header t)[2] →
      OnlyError 4 2 s s') ∧
    (HeaderAccepted t s → s.policy.enums = .reject → ∀ k : Fin t.fieldCount,
      (∀ j : Fin t.fieldCount, j < k → (kinds t)[j].isEnum = true →
        legal (kinds t)[j] (unpack t (payloadOf s))[j] = true) →
      (kinds t)[k].isEnum = true → legal (kinds t)[k] (unpack t (payloadOf s))[k] = false →
      OnlyError 5 (BitVec.ofNat 4 k) s s') ∧
    (HeaderAccepted t s → EnumsAccepted t s → s.policy.pads = .rejectNonzero → padBits t (payloadOf s) ≠ 0 →
      OnlyError 5 15 s s') ∧
    (HeaderAccepted t s → EnumsAccepted t s → PadsAccepted t s →
      (∀ k : Fin t.fieldCount, (s'.frame t)[k].fv = (unpack t (payloadOf s))[k] ∧ (s'.frame t)[k].v = true) ∧
      SameFieldsBut t s s' ∧ SameBuffer s s' ∧ s'.flen = s.flen ∧ SameResult s s' ∧ SameModel s s' ∧ NoError s')

/-- 40_codec.md R112: HDR completes wherever FBUF has its bytes, whatever the fields hold; it writes the type's fixed
header to FBUF[0..2], FLEN takes 3, and nothing else changes but ERR and ERRF. -/
def Obligations.HdrWritesTheHeader : Prop :=
  ∀ (t : FrameType) (s : State), Memory.wf s.fbuf → ∃ s' : State, exec (.hdr t) s = .next s' ∧
    readByte s'.fbuf 0 = some (syncByte t) ∧ readByte s'.fbuf 1 = some (typeId t) ∧
    readByte s'.fbuf 2 = some (BitVec.ofNat 8 (payloadLength t)) ∧ SameBufferBut 0 3 s s' ∧ s'.flen = 3 ∧
    SameFields s s' ∧ SameResult s s' ∧ SameModel s s' ∧ NoError s'

/-- 40_codec.md R113 (derived by the spec from R110 and R111), first direction, under every policy: with every field of the type set and legal, ENC and then DEC
of the type complete without error, and every field register and valid flag is as before. -/
def Obligations.EncodeThenDecodeKeepsFields : Prop :=
  ∀ (t : FrameType) (s : State), Memory.wf s.fbuf → AllLegal t s →
    ∃ s1 s2 : State, exec (.enc t) s = .next s1 ∧ exec (.dec t) s1 = .next s2 ∧ NoError s1 ∧ NoError s2 ∧
      SameFields s s2

/-- 40_codec.md R113 (derived by the spec from R110 and R111), other direction, under the header and enumeration checks that are the default: after a DEC that
completes without error, ENC of the type completes and writes back the frame with its pad bits cleared; where the pad
bits were 0 that is the frame itself. -/
def Obligations.DecodeThenEncodeWritesBack : Prop :=
  ∀ (t : FrameType) (s d : State), Memory.wf s.fbuf → s.policy.header = .all → s.policy.enums = .reject →
    exec (.dec t) s = .next d → d.err = 0 →
    ∃ e : State, exec (.enc t) d = .next e ∧ NoError e ∧ e.flen = s.flen ∧
      (∀ i : Nat, i < frameLength t → readByte e.fbuf i = some (byteAt s.fbuf i &&& keptBits t i)) ∧
      SameBufferBut 0 (frameLength t) s e ∧ (padBits t (payloadOf s) = 0 → SameBuffer s e)

/-- 40_codec.md R114 (derived by the spec from R111): a second DEC of the same type with no write between leaves the very same state, after a success
and after an error alike. -/
def Obligations.DecIsIdempotent : Prop :=
  ∀ (t : FrameType) (s d : State), exec (.dec t) s = .next d → exec (.dec t) d = .next d

/-- 40_codec.md R114 ("reads only FBUF and FLEN"): DEC's outcome depends on FBUF[0..L-1], FLEN and the policy alone. Two states that agree on
these get the same ERR and ERRF, and without error the same fields of the type. -/
def Obligations.DecReadsOnlyTheFrame : Prop :=
  ∀ (t : FrameType) (s1 s2 d1 d2 : State), s1.flen = s2.flen → s1.policy = s2.policy →
    (∀ a : Nat, a < frameLength t → readByte s1.fbuf a = readByte s2.fbuf a) →
    exec (.dec t) s1 = .next d1 → exec (.dec t) s2 = .next d2 →
    d1.err = d2.err ∧ d1.errf = d2.errf ∧ (d1.err = 0 → d1.frame t = d2.frame t)

/-- The integer conversions, read from 40_codec.md R115; which bytes are sent is stated by the payload layouts and not
here. The 16-bit two's-complement pattern of an s16 value is its residue modulo 65536, and it stands for that value. The
high and low byte of a pattern give the pattern back, and its s16 value is `uint(x) - 65536·x[15]`. A legal value of
every other kind is the zero-extension of its low `width` bits. -/
def Obligations.IntegerConversions : Prop :=
  (∀ v : Int, -32768 ≤ v → v ≤ 32767 →
    ((BitVec.ofInt 16 v).toNat : Int) = v % 65536 ∧ fieldValue .s16 (BitVec.ofInt 16 v) = v) ∧
  (∀ x : Half, highByte x ++ lowByte x = x ∧
    fieldValue .s16 x = (x.toNat : Int) - 65536 * ((x.getLsbD 15).toNat : Int)) ∧
  (∀ (kind : FieldKind) (x : Half), kind ≠ .s16 → legal kind x = true →
    (lowBits kind.width x).setWidth 16 = x ∧ fieldValue kind x = x.toNat)

/-- 10_state.md R23: the legal sets, as sets of the integers the registers stand for. -/
def Obligations.LegalSets : Prop :=
  ∀ x : Half,
    (legal .s16 x = true ∧ -32768 ≤ fieldValue .s16 x ∧ fieldValue .s16 x ≤ 32767) ∧
    (legal .u8 x = true ↔ fieldValue .u8 x ≤ 255) ∧
    (legal .b1 x = true ↔ fieldValue .b1 x ≤ 1) ∧
    (legal .dir x = true ↔ fieldValue .dir x = 0 ∨ fieldValue .dir x = 1 ∨ fieldValue .dir x = 3) ∧
    (legal .hvc x = true ↔ fieldValue .hvc x = 0 ∨ fieldValue .hvc x = 1)

/-! ### The frame buffer commands -/

/-- 42_buffer.md R160: WRB completes wherever FBUF has its bytes; the one byte is written, whatever FLEN is, and nothing
else changes but ERR and ERRF. -/
def Obligations.WrbWritesOneByte : Prop :=
  ∀ (a : BitVec 4) (b : Byte) (s : State), Memory.wf s.fbuf → ∃ s' : State, exec (.wrb a b) s = .next s' ∧
    readByte s'.fbuf (byteAddress a) = some b ∧ SameBufferBut (byteAddress a) 1 s s' ∧ s'.flen = s.flen ∧
    SameFields s s' ∧ SameResult s s' ∧ SameModel s s' ∧ NoError s'

/-- 42_buffer.md R161: RDB completes wherever FBUF has its bytes; RES is the byte zero-extended and RESV is 1, and
nothing else changes but ERR and ERRF. -/
def Obligations.RdbReadsOneByte : Prop :=
  ∀ (a : BitVec 4) (s : State), Memory.wf s.fbuf → ∃ (b : Byte) (s' : State),
    readByte s.fbuf (byteAddress a) = some b ∧ exec (.rdb a) s = .next s' ∧ s'.res.toNat = b.toNat ∧ s'.resv = true ∧
    SameBuffer s s' ∧ s'.flen = s.flen ∧ SameFields s s' ∧ SameModel s s' ∧ NoError s'

/-- 42_buffer.md R161, 93 I13: a byte that nothing has written since reset reads as its draw, whatever that is. -/
def Obligations.RdbAfterResetReturnsTheDraw : Prop :=
  ∀ a : BitVec 4, ∃ s' : State, exec (.rdb a) State.reset = .next s' ∧
    s'.res = (Config.fbufDraw 0 a.toNat).setWidth 32 ∧ s'.resv = true

/-- 42_buffer.md R162: SETLEN completes for a length 0..16 and sets FLEN, and nothing else changes but ERR and ERRF. A
word with a length of 17..31 is illegal. -/
def Obligations.SetlenSetsTheLength : Prop :=
  (∀ (n : BitVec 5) (s : State), n.toNat ≤ 16 → ∃ s' : State, exec (.setlen n) s = .next s' ∧ s'.flen = n ∧
    SameFields s s' ∧ SameBuffer s s' ∧ SameResult s s' ∧ SameModel s s' ∧ NoError s') ∧
  (∀ n : BitVec 5, 17 ≤ n.toNat → ∃ e, decode (encode (.setlen n)) = .error e)

/-- 42_buffer.md R163: GETLEN completes in every state; RES is FLEN zero-extended and RESV is 1, and nothing else changes
but ERR and ERRF. -/
def Obligations.GetlenReadsTheLength : Prop :=
  ∀ s : State, ∃ s' : State, exec .getlen s = .next s' ∧ s'.res.toNat = s.flen.toNat ∧ s'.resv = true ∧
    s'.flen = s.flen ∧ SameFields s s' ∧ SameBuffer s s' ∧ SameModel s s' ∧ NoError s'

/-- 30_encoding.md R78: the commands of LDFRAME load their 1 to 16 bytes to FBUF from address 0 on and set FLEN to their
number, and nothing else changes but ERR and ERRF. -/
def Obligations.LdframeLoadsBytes : Prop :=
  ∀ (bs : List Byte) (s : State), 1 ≤ bs.length → bs.length ≤ 16 → Memory.wf s.fbuf →
    ∃ (is : List Instr) (s' : State), expandLdframe bs = some is ∧ runCommands is s = .next s' ∧
      (∀ i : Nat, i < bs.length → readByte s'.fbuf i = bs[i]?) ∧ SameBufferBut 0 bs.length s s' ∧
      s'.flen.toNat = bs.length ∧ SameFields s s' ∧ SameResult s s' ∧ SameModel s s' ∧ NoError s'

/-! ### The whole machine -/

/-- 10_state.md R35 (derived by the spec from the command rules): what each command may write, over all commands. -/
def Obligations.WriteSummary : Prop :=
  ∀ (i : Instr) (s s' : State), exec i s = .next s' →
    SameModel s s' ∧
    (∀ (t : FrameType) (j : Fin t.fieldCount), (s'.frame t)[j] ≠ (s.frame t)[j] →
      i = .clr t ∨ (∃ k x, i = .setf t k x ∧ k.toNat = j.val) ∨ (i = .dec t ∧ s'.err = 0) ∨ i = .newd t) ∧
    (∀ a : Nat, readByte s'.fbuf a ≠ readByte s.fbuf a →
      (∃ t, i = .enc t ∧ a < frameLength t ∧ s'.err = 0) ∨ (∃ t, i = .hdr t ∧ a < 3) ∨
        (∃ x b, i = .wrb x b ∧ a = byteAddress x)) ∧
    (s'.flen ≠ s.flen →
      s'.err = 0 ∧ ((∃ t, i = .enc t) ∨ (∃ t, i = .hdr t ∧ s'.flen = 3) ∨ (∃ n, i = .setlen n))) ∧
    (¬ SameResult s s' →
      s'.err = 0 ∧ ((∃ t k, i = .getf t k) ∨ (∃ a, i = .rdb a) ∨ i = .getlen))

/-- 60_exceptions.md R182: errors are precise. A command that reports an error leaves the state before it, with ERR and
ERRF; NEWD alone also leaves every field of its type unset. -/
def Obligations.ErrorsArePrecise : Prop :=
  ∀ (i : Instr) (s s' : State), exec i s = .next s' → s'.err ≠ 0 →
    OnlyError s'.err s'.errf s s' ∨
    ∃ t : FrameType, i = .newd t ∧ AllUnset t s' ∧ SameFieldsBut t s s' ∧ SameBuffer s s' ∧ s'.flen = s.flen ∧
      SameResult s s' ∧ SameModel s s'

/-- 10_state.md R32, 60_exceptions.md R183: ERR and ERRF describe the most recent command only. No command's outcome
depends on what they held before it, and every command overwrites both. -/
def Obligations.ErrorsAreNotSticky : Prop :=
  ∀ (i : Instr) (s : State) (e : BitVec 3) (f : BitVec 4), exec i { s with err := e, errf := f } = exec i s

/-- 70_reset_and_hazards.md R201 (derived by the spec from R140 and R34): CLR of each of some types completes, brings every field of these types to the reset
state, and leaves the other types, FBUF, FLEN, RES and RESV alone. -/
def Obligations.SessionRestartByClr : Prop :=
  ∀ (ts : List FrameType) (s : State), ∃ s' : State, runCommands (ts.map .clr) s = .next s' ∧
    (∀ t : FrameType, t ∈ ts → s'.frame t = State.reset.frame t) ∧
    (∀ t : FrameType, t ∉ ts → s'.frame t = s.frame t) ∧
    SameBuffer s s' ∧ s'.flen = s.flen ∧ SameResult s s' ∧ SameModel s s'

/-- 70_reset_and_hazards.md R206 (derived by the spec from R111 and R112): after HDR and any WRB commands, without a SETLEN, DEC of every type reports DecLength
and changes nothing else. -/
def Obligations.HdrThenDecReportsLength : Prop :=
  ∀ (t u : FrameType) (writes : List (BitVec 4 × Byte)) (s : State), Memory.wf s.fbuf →
    ∃ s1 s2 : State, runCommands (.hdr t :: writes.map fun p => .wrb p.1 p.2) s = .next s1 ∧
      exec (.dec u) s1 = .next s2 ∧ OnlyError 3 0 s1 s2

/-- Every step keeps the invariant: FBUF keeps its 16 bytes (20_memory.md R50; the canonical form is the model's, log 2), an
unset field holds 0 (10_state.md R27, derived by the spec), FLEN stays in 0..16 (R29), ERR and ERRF hold a pair of 60_exceptions.md R181 and never code 7, and RES is 0 where RESV
is. -/
def Obligations.StepKeepsInvariant : Prop :=
  ∀ s s' : State, s.Inv → step s = .next s' → s'.Inv

/-- The state right after reset meets the invariant (10_state.md R34). -/
def Obligations.ResetMeetsInvariant : Prop := State.reset.Inv

/-- With FBUF in its canonical form and no overlapping command at the port, every step completes: no fault and no
refusal, whatever the word is (70_reset_and_hazards.md R202, R203; the canonical form is the model's, log 2). -/
def Obligations.DutifulStepCompletes : Prop :=
  ∀ s : State, Memory.wf s.fbuf → (∀ x rest, s.inputs = x :: rest → x.dutiful = true) →
    ∃ s' : State, step s = .next s'

/-- Where the host keeps its duty of R203, every run from a state that meets the invariant goes on for ever without a
fault or a refusal, and every state it reaches meets the invariant, whatever the host presents. -/
def Obligations.DutifulRunsAreSafe : Prop :=
  ∀ s : State, s.Inv → HostDuty s → SafeFrom s ∧ ∀ u : State, Reaches s u → u.Inv
end

