-- ==== Sys2Proof/Laws/Memory.lean ====
section
/-! SUPPORT. The laws of the frame buffer: read after write, what a write leaves alone, and that every operation keeps the
canonical form (20_memory.md R50 to R59). -/

namespace Sys2Proof.Machine

open Sys2Proof.Config

@[simp] theorem readByte_nil (a : Nat) : readByte [] a = none := rfl

theorem readByte_cons (c : Host.Cell) (m : List Host.Cell) (a : Nat) :
    readByte (c :: m) a = if a = c.1 then some c.2 else readByte m a := rfl

theorem writeByte_cons (c : Host.Cell) (m : List Host.Cell) (a : Nat) (v : Byte) :
    writeByte (c :: m) a v = if a = c.1 then (c.1, v) :: m else c :: writeByte m a v := rfl

/-- A byte is there exactly where its address is listed. -/
theorem readByte_isSome_iff (m : List Host.Cell) (a : Nat) : (readByte m a).isSome ↔ a ∈ m.map Prod.fst := by
  induction m with
  | nil => simp
  | cons c m ih =>
    rw [readByte_cons, List.map_cons, List.mem_cons, ← ih]
    by_cases h : a = c.1 <;> simp [h]

/-- A write keeps the list of addresses. -/
@[simp] theorem writeByte_addresses (m : List Host.Cell) (a : Nat) (v : Byte) :
    (writeByte m a v).map Prod.fst = m.map Prod.fst := by
  induction m with
  | nil => rfl
  | cons c m ih =>
    rw [writeByte_cons]
    by_cases h : a = c.1 <;> simp [h, ih]

@[simp] theorem writeBytes_addresses (m : List Host.Cell) (a : Nat) (vs : List Byte) :
    (writeBytes m a vs).map Prod.fst = m.map Prod.fst := by
  induction vs generalizing m a with
  | nil => rfl
  | cons v vs ih => simp [writeBytes, ih]

/-- A read of the address just written gives the value written. -/
theorem readByte_writeByte_self (m : List Host.Cell) (a : Nat) (v : Byte) (h : a ∈ m.map Prod.fst) :
    readByte (writeByte m a v) a = some v := by
  induction m with
  | nil => simp at h
  | cons c m ih =>
    rw [writeByte_cons]
    by_cases hc : a = c.1
    · simp [hc, readByte_cons]
    · rw [if_neg hc, readByte_cons, if_neg hc]
      rw [List.map_cons, List.mem_cons] at h
      exact ih (h.resolve_left hc)

/-- A write leaves every other address alone. -/
theorem readByte_writeByte_ne (m : List Host.Cell) (a b : Nat) (v : Byte) (h : b ≠ a) :
    readByte (writeByte m a v) b = readByte m b := by
  induction m with
  | nil => rfl
  | cons c m ih =>
    rw [writeByte_cons]
    by_cases hc : a = c.1
    · have hb : b ≠ c.1 := fun e => h (e.trans hc.symm)
      rw [if_pos hc, readByte_cons, readByte_cons, if_neg hb, if_neg hb]
    · rw [if_neg hc, readByte_cons, readByte_cons, ih]

/-- A multi-byte write leaves every address outside its range alone. -/
theorem readByte_writeBytes_outside (m : List Host.Cell) (a b : Nat) (vs : List Byte)
    (h : b < a ∨ a + vs.length ≤ b) : readByte (writeBytes m a vs) b = readByte m b := by
  induction vs generalizing m a with
  | nil => rfl
  | cons v vs ih =>
    rw [List.length_cons] at h
    rw [writeBytes, ih _ _ (by omega), readByte_writeByte_ne _ _ _ _ (by omega)]

/-- A multi-byte write puts byte `i` at address `a + i`. -/
theorem readByte_writeBytes_inside (m : List Host.Cell) (a i : Nat) (vs : List Byte) (hi : i < vs.length)
    (h : ∀ j, j < vs.length → a + j ∈ m.map Prod.fst) : readByte (writeBytes m a vs) (a + i) = some vs[i] := by
  induction vs generalizing m a i with
  | nil => simp at hi
  | cons v vs ih =>
    rw [writeBytes]
    cases i with
    | zero =>
      rw [readByte_writeBytes_outside _ _ _ _ (by omega)]
      exact readByte_writeByte_self m a v (h 0 (by simp))
    | succ i =>
      have step := ih (writeByte m a v) (a + 1) i (by simpa using hi) (fun j hj => by
        rw [writeByte_addresses, Nat.add_assoc, Nat.add_comm 1 j]
        exact h (j + 1) (by simpa using hj))
      simpa [Nat.add_assoc, Nat.add_comm 1 i] using step

/-! ### The canonical form -/

/-- Every address 0..15 is listed, and no other. -/
theorem mem_addresses_of_wf {m : List Host.Cell} (h : Memory.wf m) (a : Nat) : a ∈ m.map Prod.fst ↔ a < 16 := by
  rw [h, List.mem_range, bufferSize]

/-- The addresses rise strictly. -/
theorem addresses_rise_of_wf {m : List Host.Cell} (h : Memory.wf m) : (m.map Prod.fst).Pairwise (· < ·) := by
  rw [h]
  exact List.pairwise_lt_range

theorem wf_writeByte {m : List Host.Cell} (h : Memory.wf m) (a : Nat) (v : Byte) : Memory.wf (writeByte m a v) := by
  rw [Memory.wf, writeByte_addresses, h]

theorem wf_writeBytes {m : List Host.Cell} (h : Memory.wf m) (a : Nat) (vs : List Byte) :
    Memory.wf (writeBytes m a vs) := by
  rw [Memory.wf, writeBytes_addresses, h]

theorem wf_drawnBuffer (n : Nat) : Memory.wf (drawnBuffer n) := by
  simp [Memory.wf, drawnBuffer, Function.comp_def]

/-- In canonical form every address 0..15 reads as a byte. -/
theorem readByte_of_wf {m : List Host.Cell} (h : Memory.wf m) {a : Nat} (ha : a < 16) :
    readByte m a = some (byteAt m a) := by
  have hs := (readByte_isSome_iff m a).mpr ((mem_addresses_of_wf h a).mpr ha)
  obtain ⟨b, hb⟩ := Option.isSome_iff_exists.mp hs
  simp [byteAt, hb]

/-- In canonical form no address above 15 exists. -/
theorem readByte_none_of_wf {m : List Host.Cell} (h : Memory.wf m) {a : Nat} (ha : 16 ≤ a) : readByte m a = none := by
  have hn : ¬ (readByte m a).isSome := fun hs => by
    have := (mem_addresses_of_wf h a).mp ((readByte_isSome_iff m a).mp hs)
    omega
  simpa using hn

/-- Byte `a` of a buffer just drawn is its draw (10_state.md R34). -/
theorem readByte_drawnBuffer (n a : Nat) (ha : a < 16) : readByte (drawnBuffer n) a = some (fbufDraw n a) := by
  have key : ∀ l : List Nat, a ∈ l → readByte (l.map fun x => (x, fbufDraw n x)) a = some (fbufDraw n a) := by
    intro l
    induction l with
    | nil => simp
    | cons x l ih =>
      intro hm
      rw [List.map_cons, readByte_cons]
      by_cases hx : a = x
      · simp [hx]
      · rw [if_neg hx]
        exact ih ((List.mem_cons.mp hm).resolve_left hx)
  exact key _ (List.mem_range.mpr ha)

/-- Lists with the same addresses, none of them twice, that read alike everywhere are the same list. -/
theorem eq_of_readByte_of_addresses {m m' : List Host.Cell} (ha : m.map Prod.fst = m'.map Prod.fst)
    (hn : (m.map Prod.fst).Nodup) (h : ∀ a, readByte m a = readByte m' a) : m = m' := by
  induction m generalizing m' with
  | nil => exact (List.map_eq_nil_iff.mp ha.symm).symm
  | cons c m ih =>
    cases m' with
    | nil => simp at ha
    | cons c' m' =>
      simp only [List.map_cons, List.cons.injEq] at ha
      rw [List.map_cons, List.nodup_cons] at hn
      have h0 := h c.1
      rw [readByte_cons, if_pos rfl, readByte_cons, if_pos ha.1] at h0
      have hc : c = c' := Prod.ext ha.1 (Option.some.inj h0)
      subst hc
      congr 1
      refine ih ha.2 hn.2 fun a => ?_
      by_cases hx : a = c.1
      · subst hx
        have n1 : ¬ (readByte m c.1).isSome := fun hs => hn.1 ((readByte_isSome_iff _ _).mp hs)
        have n2 : ¬ (readByte m' c.1).isSome := fun hs => hn.1 (ha.2 ▸ (readByte_isSome_iff _ _).mp hs)
        simp only [Option.not_isSome_iff_eq_none] at n1 n2
        rw [n1, n2]
      · have := h a
        rwa [readByte_cons, readByte_cons, if_neg hx, if_neg hx] at this

/-- Equal memories are equal data: two canonical buffers that read alike are the same list. -/
theorem eq_of_readByte {m m' : List Host.Cell} (h : Memory.wf m) (h' : Memory.wf m')
    (hr : ∀ a, readByte m a = readByte m' a) : m = m' :=
  eq_of_readByte_of_addresses (h.trans h'.symm) (h ▸ List.nodup_range) hr

/-! ### The range guard -/

/-- The guard lets an access through exactly where all its addresses are listed. -/
theorem firstAbsent_eq_none_iff (m : List Host.Cell) (a n : Nat) :
    firstAbsent m a n = none ↔ ∀ i, i < n → a + i ∈ m.map Prod.fst := by
  induction n generalizing a with
  | zero => simp [firstAbsent]
  | succ n ih =>
    rw [firstAbsent]
    by_cases h : (readByte m a).isNone
    · have hm : ¬ a ∈ m.map Prod.fst := fun hm => by
        have := (readByte_isSome_iff m a).mpr hm
        simp_all
      simp only [h, if_true, reduceCtorEq, false_iff]
      exact fun hall => hm (hall 0 (by omega))
    · have hm : a ∈ m.map Prod.fst := (readByte_isSome_iff m a).mp (by simpa [Option.isSome_iff_ne_none] using h)
      rw [if_neg h, ih]
      constructor
      · intro hall i hi
        cases i with
        | zero => exact hm
        | succ i =>
          have := hall i (by omega)
          rwa [Nat.add_assoc, Nat.add_comm 1 i] at this
      · intro hall i hi
        have := hall (i + 1) (by omega)
        rwa [Nat.add_assoc, Nat.add_comm 1 i]

/-- In canonical form an access within 0..15 goes ahead. -/
theorem State.onRange_of_wf (s : State) (a n : Nat) (k : Host.Outcome State Fault Refusal) (h : Memory.wf s.fbuf)
    (hr : a + n ≤ 16) : s.onRange a n k = k := by
  have : firstAbsent s.fbuf a n = none :=
    (firstAbsent_eq_none_iff _ _ _).mpr fun i hi => (mem_addresses_of_wf h _).mpr (by omega)
  simp [State.onRange, this]

/-- What the guard can do: let the access through with all its addresses listed, or fault at a missing one. -/
theorem State.onRange_cases (s : State) (a n : Nat) (k : Host.Outcome State Fault Refusal) :
    (s.onRange a n k = k ∧ ∀ i, i < n → a + i ∈ s.fbuf.map Prod.fst) ∨
      ∃ x, s.onRange a n k = .fault (.noSuchAddress x) := by
  unfold State.onRange
  cases h : firstAbsent s.fbuf a n with
  | none => exact .inl ⟨rfl, (firstAbsent_eq_none_iff _ _ _).mp h⟩
  | some x => exact .inr ⟨x, rfl⟩

/-- If a guarded access answers a next state, it went ahead. -/
theorem State.onRange_next {s s' : State} {a n : Nat} {k : Host.Outcome State Fault Refusal}
    (h : s.onRange a n k = .next s') : k = .next s' ∧ ∀ i, i < n → a + i ∈ s.fbuf.map Prod.fst := by
  rcases State.onRange_cases s a n k with ⟨hk, hm⟩ | ⟨x, hx⟩
  · exact ⟨hk ▸ h, hm⟩
  · rw [hx] at h
    cases h

end Sys2Proof.Machine
end

