-- ==== Sys2Proof/Laws/State.lean ====
section
/-! SUPPORT. What each update of the state does to each of its fields: one lemma per field per update. A register set is
always spelled `s.frame t`. -/

namespace Sys2Proof.Machine

variable (s : State)

/-! ### raise -/

@[simp] theorem State.raise_frame (e : CmdError) (t : FrameType) : (s.raise e).frame t = s.frame t := by cases t <;> rfl
@[simp] theorem State.raise_fbuf (e : CmdError) : (s.raise e).fbuf = s.fbuf := rfl
@[simp] theorem State.raise_flen (e : CmdError) : (s.raise e).flen = s.flen := rfl
@[simp] theorem State.raise_res (e : CmdError) : (s.raise e).res = s.res := rfl
@[simp] theorem State.raise_resv (e : CmdError) : (s.raise e).resv = s.resv := rfl
@[simp] theorem State.raise_err (e : CmdError) : (s.raise e).err = e.code := rfl
@[simp] theorem State.raise_errf (e : CmdError) : (s.raise e).errf = e.detail := rfl
@[simp] theorem State.raise_policy (e : CmdError) : (s.raise e).policy = s.policy := rfl
@[simp] theorem State.raise_resets (e : CmdError) : (s.raise e).resets = s.resets := rfl
@[simp] theorem State.raise_inputs (e : CmdError) : (s.raise e).inputs = s.inputs := rfl

/-! ### ok -/

@[simp] theorem State.ok_frame (t : FrameType) : (s.ok).frame t = s.frame t := by cases t <;> rfl
@[simp] theorem State.ok_fbuf : (s.ok).fbuf = s.fbuf := rfl
@[simp] theorem State.ok_flen : (s.ok).flen = s.flen := rfl
@[simp] theorem State.ok_res : (s.ok).res = s.res := rfl
@[simp] theorem State.ok_resv : (s.ok).resv = s.resv := rfl
@[simp] theorem State.ok_err : (s.ok).err = 0 := rfl
@[simp] theorem State.ok_errf : (s.ok).errf = 0 := rfl
@[simp] theorem State.ok_policy : (s.ok).policy = s.policy := rfl
@[simp] theorem State.ok_resets : (s.ok).resets = s.resets := rfl
@[simp] theorem State.ok_inputs : (s.ok).inputs = s.inputs := rfl

/-! ### setResult -/

@[simp] theorem State.setResult_frame (w : Word) (b : Bool) (t : FrameType) : (s.setResult w b).frame t = s.frame t := by cases t <;> rfl
@[simp] theorem State.setResult_fbuf (w : Word) (b : Bool) : (s.setResult w b).fbuf = s.fbuf := rfl
@[simp] theorem State.setResult_flen (w : Word) (b : Bool) : (s.setResult w b).flen = s.flen := rfl
@[simp] theorem State.setResult_res (w : Word) (b : Bool) : (s.setResult w b).res = w := rfl
@[simp] theorem State.setResult_resv (w : Word) (b : Bool) : (s.setResult w b).resv = b := rfl
@[simp] theorem State.setResult_err (w : Word) (b : Bool) : (s.setResult w b).err = s.err := rfl
@[simp] theorem State.setResult_errf (w : Word) (b : Bool) : (s.setResult w b).errf = s.errf := rfl
@[simp] theorem State.setResult_policy (w : Word) (b : Bool) : (s.setResult w b).policy = s.policy := rfl
@[simp] theorem State.setResult_resets (w : Word) (b : Bool) : (s.setResult w b).resets = s.resets := rfl
@[simp] theorem State.setResult_inputs (w : Word) (b : Bool) : (s.setResult w b).inputs = s.inputs := rfl

/-! ### putFrame -/

@[simp] theorem State.putFrame_frame (bs : List Byte) (n : Nat) (t : FrameType) : (s.putFrame bs n).frame t = s.frame t := by cases t <;> rfl
@[simp] theorem State.putFrame_fbuf (bs : List Byte) (n : Nat) : (s.putFrame bs n).fbuf = writeBytes s.fbuf 0 bs := rfl
@[simp] theorem State.putFrame_flen (bs : List Byte) (n : Nat) : (s.putFrame bs n).flen = BitVec.ofNat 5 n := rfl
@[simp] theorem State.putFrame_res (bs : List Byte) (n : Nat) : (s.putFrame bs n).res = s.res := rfl
@[simp] theorem State.putFrame_resv (bs : List Byte) (n : Nat) : (s.putFrame bs n).resv = s.resv := rfl
@[simp] theorem State.putFrame_err (bs : List Byte) (n : Nat) : (s.putFrame bs n).err = s.err := rfl
@[simp] theorem State.putFrame_errf (bs : List Byte) (n : Nat) : (s.putFrame bs n).errf = s.errf := rfl
@[simp] theorem State.putFrame_policy (bs : List Byte) (n : Nat) : (s.putFrame bs n).policy = s.policy := rfl
@[simp] theorem State.putFrame_resets (bs : List Byte) (n : Nat) : (s.putFrame bs n).resets = s.resets := rfl
@[simp] theorem State.putFrame_inputs (bs : List Byte) (n : Nat) : (s.putFrame bs n).inputs = s.inputs := rfl

/-! ### takeInput -/

@[simp] theorem State.takeInput_frame (rest : List HostInput) (t : FrameType) : (s.takeInput rest).frame t = s.frame t := by cases t <;> rfl
@[simp] theorem State.takeInput_fbuf (rest : List HostInput) : (s.takeInput rest).fbuf = s.fbuf := rfl
@[simp] theorem State.takeInput_flen (rest : List HostInput) : (s.takeInput rest).flen = s.flen := rfl
@[simp] theorem State.takeInput_res (rest : List HostInput) : (s.takeInput rest).res = s.res := rfl
@[simp] theorem State.takeInput_resv (rest : List HostInput) : (s.takeInput rest).resv = s.resv := rfl
@[simp] theorem State.takeInput_err (rest : List HostInput) : (s.takeInput rest).err = s.err := rfl
@[simp] theorem State.takeInput_errf (rest : List HostInput) : (s.takeInput rest).errf = s.errf := rfl
@[simp] theorem State.takeInput_policy (rest : List HostInput) : (s.takeInput rest).policy = s.policy := rfl
@[simp] theorem State.takeInput_resets (rest : List HostInput) : (s.takeInput rest).resets = s.resets := rfl
@[simp] theorem State.takeInput_inputs (rest : List HostInput) : (s.takeInput rest).inputs = rest := rfl

/-! ### rejectWord -/

@[simp] theorem State.rejectWord_frame (e : IllegalWord) (t : FrameType) : (s.rejectWord e).frame t = s.frame t := by cases t <;> rfl
@[simp] theorem State.rejectWord_fbuf (e : IllegalWord) : (s.rejectWord e).fbuf = s.fbuf := rfl
@[simp] theorem State.rejectWord_flen (e : IllegalWord) : (s.rejectWord e).flen = s.flen := rfl
@[simp] theorem State.rejectWord_res (e : IllegalWord) : (s.rejectWord e).res = s.res := rfl
@[simp] theorem State.rejectWord_resv (e : IllegalWord) : (s.rejectWord e).resv = s.resv := rfl
@[simp] theorem State.rejectWord_err (e : IllegalWord) : (s.rejectWord e).err = 6 := rfl
@[simp] theorem State.rejectWord_errf (e : IllegalWord) : (s.rejectWord e).errf = 0 := rfl
@[simp] theorem State.rejectWord_policy (e : IllegalWord) : (s.rejectWord e).policy = s.policy := rfl
@[simp] theorem State.rejectWord_resets (e : IllegalWord) : (s.rejectWord e).resets = s.resets := rfl
@[simp] theorem State.rejectWord_inputs (e : IllegalWord) : (s.rejectWord e).inputs = s.inputs := rfl

/-! ### present -/

@[simp] theorem State.present_frame (w : Word) (t : FrameType) : (s.present w).frame t = s.frame t := by cases t <;> rfl
@[simp] theorem State.present_fbuf (w : Word) : (s.present w).fbuf = s.fbuf := rfl
@[simp] theorem State.present_flen (w : Word) : (s.present w).flen = s.flen := rfl
@[simp] theorem State.present_res (w : Word) : (s.present w).res = s.res := rfl
@[simp] theorem State.present_resv (w : Word) : (s.present w).resv = s.resv := rfl
@[simp] theorem State.present_err (w : Word) : (s.present w).err = s.err := rfl
@[simp] theorem State.present_errf (w : Word) : (s.present w).errf = s.errf := rfl
@[simp] theorem State.present_policy (w : Word) : (s.present w).policy = s.policy := rfl
@[simp] theorem State.present_resets (w : Word) : (s.present w).resets = s.resets := rfl
@[simp] theorem State.present_inputs (w : Word) : (s.present w).inputs = .command w :: s.inputs := rfl

/-! ### withFetchWord -/

@[simp] theorem State.withFetchWord_frame (nbits w : Nat) (t : FrameType) : (s.withFetchWord nbits w).frame t = s.frame t := by cases t <;> rfl
@[simp] theorem State.withFetchWord_fbuf (nbits w : Nat) : (s.withFetchWord nbits w).fbuf = s.fbuf := rfl
@[simp] theorem State.withFetchWord_flen (nbits w : Nat) : (s.withFetchWord nbits w).flen = s.flen := rfl
@[simp] theorem State.withFetchWord_res (nbits w : Nat) : (s.withFetchWord nbits w).res = s.res := rfl
@[simp] theorem State.withFetchWord_resv (nbits w : Nat) : (s.withFetchWord nbits w).resv = s.resv := rfl
@[simp] theorem State.withFetchWord_err (nbits w : Nat) : (s.withFetchWord nbits w).err = s.err := rfl
@[simp] theorem State.withFetchWord_errf (nbits w : Nat) : (s.withFetchWord nbits w).errf = s.errf := rfl
@[simp] theorem State.withFetchWord_policy (nbits w : Nat) : (s.withFetchWord nbits w).policy = s.policy := rfl
@[simp] theorem State.withFetchWord_resets (nbits w : Nat) : (s.withFetchWord nbits w).resets = s.resets := rfl
@[simp] theorem State.withFetchWord_inputs (nbits w : Nat) : (s.withFetchWord nbits w).inputs = .command (portWord nbits w) :: s.inputs := rfl

/-! ### setFrame -/

@[simp] theorem State.setFrame_fbuf (t : FrameType) (fs : Vector FieldReg t.fieldCount) : (s.setFrame t fs).fbuf = s.fbuf := by cases t <;> rfl
@[simp] theorem State.setFrame_flen (t : FrameType) (fs : Vector FieldReg t.fieldCount) : (s.setFrame t fs).flen = s.flen := by cases t <;> rfl
@[simp] theorem State.setFrame_res (t : FrameType) (fs : Vector FieldReg t.fieldCount) : (s.setFrame t fs).res = s.res := by cases t <;> rfl
@[simp] theorem State.setFrame_resv (t : FrameType) (fs : Vector FieldReg t.fieldCount) : (s.setFrame t fs).resv = s.resv := by cases t <;> rfl
@[simp] theorem State.setFrame_err (t : FrameType) (fs : Vector FieldReg t.fieldCount) : (s.setFrame t fs).err = s.err := by cases t <;> rfl
@[simp] theorem State.setFrame_errf (t : FrameType) (fs : Vector FieldReg t.fieldCount) : (s.setFrame t fs).errf = s.errf := by cases t <;> rfl
@[simp] theorem State.setFrame_policy (t : FrameType) (fs : Vector FieldReg t.fieldCount) : (s.setFrame t fs).policy = s.policy := by cases t <;> rfl
@[simp] theorem State.setFrame_resets (t : FrameType) (fs : Vector FieldReg t.fieldCount) : (s.setFrame t fs).resets = s.resets := by cases t <;> rfl
@[simp] theorem State.setFrame_inputs (t : FrameType) (fs : Vector FieldReg t.fieldCount) : (s.setFrame t fs).inputs = s.inputs := by cases t <;> rfl

@[simp] theorem State.setFrame_frame_self (t : FrameType) (fs : Vector FieldReg t.fieldCount) :
    (s.setFrame t fs).frame t = fs := by cases t <;> rfl

theorem State.setFrame_frame_ne (t u : FrameType) (fs : Vector FieldReg t.fieldCount) (h : u ≠ t) :
    (s.setFrame t fs).frame u = s.frame u := by
  cases t <;> cases u <;> first | rfl | exact absurd rfl h

@[simp] theorem State.setFrame_setFrame (t : FrameType) (fs gs : Vector FieldReg t.fieldCount) :
    (s.setFrame t fs).setFrame t gs = s.setFrame t gs := by cases t <;> rfl

@[simp] theorem State.setFrame_frame_eq_self (t : FrameType) : s.setFrame t (s.frame t) = s := by cases t <;> rfl

/-! ### clearFrame -/

@[simp] theorem State.clearFrame_fbuf (t : FrameType) : (s.clearFrame t).fbuf = s.fbuf := by cases t <;> rfl
@[simp] theorem State.clearFrame_flen (t : FrameType) : (s.clearFrame t).flen = s.flen := by cases t <;> rfl
@[simp] theorem State.clearFrame_res (t : FrameType) : (s.clearFrame t).res = s.res := by cases t <;> rfl
@[simp] theorem State.clearFrame_resv (t : FrameType) : (s.clearFrame t).resv = s.resv := by cases t <;> rfl
@[simp] theorem State.clearFrame_err (t : FrameType) : (s.clearFrame t).err = s.err := by cases t <;> rfl
@[simp] theorem State.clearFrame_errf (t : FrameType) : (s.clearFrame t).errf = s.errf := by cases t <;> rfl
@[simp] theorem State.clearFrame_policy (t : FrameType) : (s.clearFrame t).policy = s.policy := by cases t <;> rfl
@[simp] theorem State.clearFrame_resets (t : FrameType) : (s.clearFrame t).resets = s.resets := by cases t <;> rfl
@[simp] theorem State.clearFrame_inputs (t : FrameType) : (s.clearFrame t).inputs = s.inputs := by cases t <;> rfl

@[simp] theorem State.clearFrame_frame_self (t : FrameType) :
    (s.clearFrame t).frame t = Vector.replicate t.fieldCount .unset := State.setFrame_frame_self s t _

theorem State.clearFrame_frame_ne (t u : FrameType) (h : u ≠ t) : (s.clearFrame t).frame u = s.frame u :=
  State.setFrame_frame_ne s t u _ h

/-! ### populate -/

@[simp] theorem State.populate_fbuf (t : FrameType) (u : Vector Half t.fieldCount) : (s.populate t u).fbuf = s.fbuf := by cases t <;> rfl
@[simp] theorem State.populate_flen (t : FrameType) (u : Vector Half t.fieldCount) : (s.populate t u).flen = s.flen := by cases t <;> rfl
@[simp] theorem State.populate_res (t : FrameType) (u : Vector Half t.fieldCount) : (s.populate t u).res = s.res := by cases t <;> rfl
@[simp] theorem State.populate_resv (t : FrameType) (u : Vector Half t.fieldCount) : (s.populate t u).resv = s.resv := by cases t <;> rfl
@[simp] theorem State.populate_err (t : FrameType) (u : Vector Half t.fieldCount) : (s.populate t u).err = s.err := by cases t <;> rfl
@[simp] theorem State.populate_errf (t : FrameType) (u : Vector Half t.fieldCount) : (s.populate t u).errf = s.errf := by cases t <;> rfl
@[simp] theorem State.populate_policy (t : FrameType) (u : Vector Half t.fieldCount) : (s.populate t u).policy = s.policy := by cases t <;> rfl
@[simp] theorem State.populate_resets (t : FrameType) (u : Vector Half t.fieldCount) : (s.populate t u).resets = s.resets := by cases t <;> rfl
@[simp] theorem State.populate_inputs (t : FrameType) (u : Vector Half t.fieldCount) : (s.populate t u).inputs = s.inputs := by cases t <;> rfl

@[simp] theorem State.populate_frame_self (t : FrameType) (u : Vector Half t.fieldCount) :
    (s.populate t u).frame t = Vector.ofFn fun (k : Fin t.fieldCount) => ⟨u[k], true⟩ := State.setFrame_frame_self s t _

theorem State.populate_frame_ne (t x : FrameType) (u : Vector Half t.fieldCount) (h : x ≠ t) :
    (s.populate t u).frame x = s.frame x := State.setFrame_frame_ne s t x _ h

/-- Clearing before populating makes no difference (41_frame_fields.md R143). -/
@[simp] theorem State.populate_clearFrame (t : FrameType) (u : Vector Half t.fieldCount) :
    (s.clearFrame t).populate t u = s.populate t u := State.setFrame_setFrame s t _ _

/-! ### Writing one part of the buffer or the length -/

@[simp] theorem State.withBuffer_frame (m : List Host.Cell) (t : FrameType) : { s with fbuf := m }.frame t = s.frame t := by
  cases t <;> rfl

@[simp] theorem State.withLength_frame (n : BitVec 5) (t : FrameType) : { s with flen := n }.frame t = s.frame t := by
  cases t <;> rfl

/-! ### takeReset and the state after reset -/

@[simp] theorem State.reset_frame (t : FrameType) : State.reset.frame t = Vector.replicate t.fieldCount .unset := by
  cases t <;> rfl
@[simp] theorem State.takeReset_frame (t : FrameType) :
    s.takeReset.frame t = Vector.replicate t.fieldCount .unset := by cases t <;> rfl
@[simp] theorem State.takeReset_fbuf : s.takeReset.fbuf = drawnBuffer (s.resets + 1) := rfl
@[simp] theorem State.takeReset_flen : s.takeReset.flen = 0 := rfl
@[simp] theorem State.takeReset_res : s.takeReset.res = 0 := rfl
@[simp] theorem State.takeReset_resv : s.takeReset.resv = false := rfl
@[simp] theorem State.takeReset_err : s.takeReset.err = 0 := rfl
@[simp] theorem State.takeReset_errf : s.takeReset.errf = 0 := rfl
@[simp] theorem State.takeReset_policy : s.takeReset.policy = s.policy := rfl
@[simp] theorem State.takeReset_resets : s.takeReset.resets = s.resets + 1 := rfl
@[simp] theorem State.takeReset_inputs : s.takeReset.inputs = s.inputs := rfl

/-- Two states with the same register sets and the same other fields are the same state. -/
theorem State.eq_of_fields {s s' : State} (hf : ∀ t : FrameType, s.frame t = s'.frame t) (hb : s.fbuf = s'.fbuf)
    (hl : s.flen = s'.flen) (hr : s.res = s'.res) (hv : s.resv = s'.resv) (he : s.err = s'.err)
    (hd : s.errf = s'.errf) (hp : s.policy = s'.policy) (hn : s.resets = s'.resets) (hi : s.inputs = s'.inputs) :
    s = s' := by
  have h0 := hf .control
  have h1 := hf .status
  have h2 := hf .diagSend
  have h3 := hf .diagRec
  cases s
  cases s'
  simp_all [State.frame]

end Sys2Proof.Machine
end

