-- ==== Sys2Proof/Laws/Codec.lean ====
section
/-! SUPPORT. What the checks of the codec and the codec commands can answer, said once (40_codec.md R110 to R112,
60_exceptions.md R184). -/

namespace Sys2Proof.Machine

open Sys2Proof.Config

/-! ### The first failing index -/

/-- Nothing is found where every index passes. -/
theorem findSome_finRange_none {α : Type} {n : Nat} (f : Fin n → Option α) :
    (List.finRange n).findSome? f = none ↔ ∀ k, f k = none := by
  simp [List.findSome?_eq_none_iff]

/-- What is found is the answer of the first index that fails. -/
theorem findSome_finRange_first {α : Type} {n : Nat} (f : Fin n → Option α) (k : Fin n) (e : α)
    (hb : ∀ j, j < k → f j = none) (hk : f k = some e) : (List.finRange n).findSome? f = some e := by
  induction n with
  | zero => exact k.elim0
  | succ n ih =>
    rw [List.finRange_succ, List.findSome?_cons]
    cases k using Fin.cases with
    | zero => simp [hk]
    | succ k =>
      rw [hb 0 (Fin.succ_pos k)]
      simp only [List.findSome?_map]
      exact ih (f ∘ Fin.succ) k (fun j hj => hb j.succ (Fin.succ_lt_succ_iff.mpr hj)) hk

/-- What is found comes from an index before which every index passes. -/
theorem findSome_finRange_some {α : Type} {n : Nat} (f : Fin n → Option α) (e : α)
    (h : (List.finRange n).findSome? f = some e) : ∃ k, f k = some e ∧ ∀ j, j < k → f j = none := by
  induction n with
  | zero => simp at h
  | succ n ih =>
    rw [List.finRange_succ, List.findSome?_cons] at h
    cases h0 : f 0 with
    | some x =>
      rw [h0] at h
      exact ⟨0, h0.trans h, fun j hj => absurd hj (Fin.not_lt_zero j)⟩
    | none =>
      rw [h0] at h
      simp only [List.findSome?_map] at h
      obtain ⟨k, hk, hb⟩ := ih (f ∘ Fin.succ) h
      refine ⟨k.succ, hk, fun j hj => ?_⟩
      cases j using Fin.cases with
      | zero => exact h0
      | succ j => exact hb j (Fin.succ_lt_succ_iff.mp hj)

/-! ### Lengths -/

theorem frameLength_le (t : FrameType) : frameLength t ≤ 11 := by cases t <;> decide

theorem lt_frameLength (t : FrameType) : 3 < frameLength t := by cases t <;> decide

@[simp] theorem pack_length (t : FrameType) (f : Vector Half t.fieldCount) : (pack t f).length = payloadLength t := by
  cases t <;> rfl

@[simp] theorem frameBytes_length (t : FrameType) (fs : Vector FieldReg t.fieldCount) :
    (frameBytes t fs).length = frameLength t := by
  simp [frameBytes, frameLength]

theorem fieldCount_le (t : FrameType) : t.fieldCount ≤ 9 := by cases t <;> decide

/-- The length register holds every frame's length (10_state.md R29). -/
theorem toNat_frameLength (t : FrameType) : (BitVec.ofNat 5 (frameLength t)).toNat = frameLength t := by
  cases t <;> rfl

@[simp] theorem fieldValues_getElem {n : Nat} (fs : Vector FieldReg n) (k : Nat) (h : k < n) :
    (fieldValues fs)[k] = fs[k].fv := by
  simp [fieldValues]

/-! ### ENC's check -/

theorem fieldError_eq_none_iff (kind : FieldKind) (r : FieldReg) (k : Nat) :
    fieldError kind r k = none ↔ r.v = true ∧ legal kind r.fv = true := by
  unfold fieldError
  cases r.v <;> cases legal kind r.fv <;> simp

/-- ENC finds no error exactly where every field is set and legal. -/
theorem encodeError_eq_none_iff (t : FrameType) (s : State) : encodeError t (s.frame t) = none ↔ AllLegal t s := by
  unfold encodeError AllLegal
  rw [findSome_finRange_none]
  exact forall_congr' fun k => fieldError_eq_none_iff _ _ _

/-- ENC's error is that of the first field that is unset or not legal, unset before range (60_exceptions.md R184). -/
theorem encodeError_first (t : FrameType) (s : State) (k : Fin t.fieldCount) (e : CmdError)
    (hb : ∀ j : Fin t.fieldCount, j < k → (s.frame t)[j].v = true ∧ legal (kinds t)[j] (s.frame t)[j].fv = true)
    (hk : fieldError (kinds t)[k] (s.frame t)[k] k = some e) : encodeError t (s.frame t) = some e :=
  findSome_finRange_first _ k e (fun j hj => (fieldError_eq_none_iff _ _ _).mpr (hb j hj)) hk

/-- What ENC can report: EncUnset or EncRange of a field of the type. -/
theorem encodeError_cases (t : FrameType) (fs : Vector FieldReg t.fieldCount) (e : CmdError)
    (h : encodeError t fs = some e) : ∃ k : Fin t.fieldCount, e = .encUnset k ∨ e = .encRange k := by
  obtain ⟨k, hk, -⟩ := findSome_finRange_some _ _ h
  refine ⟨k, ?_⟩
  unfold fieldError at hk
  split at hk
  · exact .inl (Option.some.inj hk).symm
  · split at hk
    · exact .inr (Option.some.inj hk).symm
    · cases hk

/-- What ENC can do: report its error and nothing else, or write the frame and its length. -/
theorem execEnc_cases {t : FrameType} {s s' : State} (h : execEnc t s = .next s') :
    (∃ e, encodeError t (s.frame t) = some e ∧ s' = s.raise e) ∨
      (AllLegal t s ∧ s' = (s.putFrame (frameBytes t (s.frame t)) (frameLength t)).ok ∧
        ∀ i, i < frameLength t → i ∈ s.fbuf.map Prod.fst) := by
  unfold execEnc at h
  cases he : encodeError t (s.frame t) with
  | some e =>
    simp only [he, Host.Outcome.next.injEq] at h
    exact .inl ⟨e, rfl, h.symm⟩
  | none =>
    simp only [he] at h
    obtain ⟨hn, hm⟩ := State.onRange_next h
    exact .inr ⟨(encodeError_eq_none_iff t s).mp he, (Host.Outcome.next.inj hn).symm, by simpa using hm⟩

/-! ### DEC's checks -/

/-- Step 2 of DEC passes exactly where the header bytes the policy compares are the type's (40_codec.md R111). -/
theorem headerError_eq_none_iff (c : HeaderCheck) (t : FrameType) (b : Nat → Byte) :
    headerError c t b = none ↔
      (c = .all → ∀ i : Fin 3, b i = (header t)[i]) ∧ (c = .lengthOnly → b 2 = (header t)[2]) := by
  cases c
  · simp only [headerError, findSome_finRange_none]
    simp
  · simp [headerError]

/-- Step 3 of DEC passes exactly where no check is made or every enumerated field holds a member. -/
theorem enumError_eq_none_iff (c : EnumDecodeCheck) (t : FrameType) (u : Vector Half t.fieldCount) :
    enumError c t u = none ↔
      (c = .reject → ∀ k : Fin t.fieldCount, (kinds t)[k].isEnum = true → legal (kinds t)[k] u[k] = true) := by
  cases c
  · simp only [enumError, findSome_finRange_none]
    simp
  · simp [enumError]

/-- Step 4 of DEC passes exactly where no check is made or every pad bit is 0. -/
theorem padError_eq_none_iff (c : PadDecodeCheck) (t : FrameType) (p : Nat → Byte) :
    padError c t p = none ↔ (c = .rejectNonzero → padBits t p = 0) := by
  cases c <;> simp [padError]

/-- What `DECcheck(t)` of 41_frame_fields.md R143 answers in a state whose buffer has the bytes. -/
def decodeAnswer (s : State) (t : FrameType) : Except CmdError (Vector Half t.fieldCount) :=
  if s.flen.toNat = frameLength t then decodeFrame s.policy t (byteAt s.fbuf) else .error .decLength

/-- With the buffer in canonical form the check never faults. -/
theorem decodeCheck_of_wf (s : State) (t : FrameType)
    (commit : Except CmdError (Vector Half t.fieldCount) → Host.Outcome State Fault Refusal)
    (h : Memory.wf s.fbuf) : s.decodeCheck t commit = commit (decodeAnswer s t) := by
  unfold State.decodeCheck decodeAnswer
  split
  · exact State.onRange_of_wf _ _ _ _ h (by have := frameLength_le t; omega)
  · rfl

/-- If the check leads to a next state, the command committed its answer. -/
theorem decodeCheck_next {s s' : State} {t : FrameType}
    {commit : Except CmdError (Vector Half t.fieldCount) → Host.Outcome State Fault Refusal}
    (h : s.decodeCheck t commit = .next s') : commit (decodeAnswer s t) = .next s' := by
  unfold State.decodeCheck at h
  unfold decodeAnswer
  split at h
  · rename_i hl
    rw [if_pos hl]
    exact (State.onRange_next h).1
  · rename_i hl
    rw [if_neg hl]
    exact h

/-- The check answers with values exactly where the header, the enumerations and the pads are accepted, and the values
are the unpacked payload. -/
theorem decodeAnswer_eq_ok_iff (s : State) (t : FrameType) (u : Vector Half t.fieldCount) :
    decodeAnswer s t = .ok u ↔
      (HeaderAccepted t s ∧ EnumsAccepted t s ∧ PadsAccepted t s) ∧ u = unpack t (payloadOf s) := by
  have hh := headerError_eq_none_iff s.policy.header t (byteAt s.fbuf)
  have he := enumError_eq_none_iff s.policy.enums t (unpack t (payloadOf s))
  have hp := padError_eq_none_iff s.policy.pads t (payloadOf s)
  unfold decodeAnswer decodeFrame HeaderAccepted EnumsAccepted PadsAccepted
  rw [← hh, ← he, ← hp]
  unfold payloadOf
  by_cases hl : s.flen.toNat = frameLength t
  · simp only [hl, if_true, true_and]
    cases headerError s.policy.header t (byteAt s.fbuf) with
    | some e => simp
    | none =>
      cases enumError s.policy.enums t (unpack t fun p => byteAt s.fbuf (3 + p)) with
      | some e => simp
      | none =>
        cases padError s.policy.pads t fun p => byteAt s.fbuf (3 + p) with
        | some e => simp
        | none => simp [eq_comm]
  · simp [hl]

/-- The errors the check can answer (60_exceptions.md R181). -/
theorem decodeAnswer_error_cases (s : State) (t : FrameType) (e : CmdError) (h : decodeAnswer s t = .error e) :
    e = .decLength ∨ (∃ i : Fin 3, e = .decHeader i) ∨
      (∃ k : Fin t.fieldCount, (kinds t)[k].isEnum = true ∧ e = .decValue k) ∨ e = .decValue 15 := by
  unfold decodeAnswer decodeFrame at h
  split at h
  · split at h
    · rename_i e' he
      obtain rfl : e' = e := by simpa using h
      refine .inr (.inl ?_)
      cases hc : s.policy.header <;> rw [hc] at he
      · obtain ⟨i, hi, -⟩ := findSome_finRange_some _ _ he
        refine ⟨i, ?_⟩
        split at hi
        · cases hi
        · exact (Option.some.inj hi).symm
      · refine ⟨2, ?_⟩
        simp only [headerError] at he
        split at he
        · cases he
        · exact (Option.some.inj he).symm
    · split at h
      · rename_i e' he
        obtain rfl : e' = e := by simpa using h
        refine .inr (.inr (.inl ?_))
        cases hc : s.policy.enums <;> rw [hc] at he
        · obtain ⟨k, hk, -⟩ := findSome_finRange_some _ _ he
          split at hk
          · rename_i hcond
            exact ⟨k, by simp_all, (Option.some.inj hk).symm⟩
          · cases hk
        · cases he
      · split at h
        · rename_i e' he
          obtain rfl : e' = e := by simpa using h
          refine .inr (.inr (.inr ?_))
          unfold padError at he
          split at he
          · cases he
          · split at he
            · cases he
            · exact (Option.some.inj he).symm
        · cases h
  · exact .inl (by simpa using h.symm)

/-- What DEC can do: report its error and nothing else, or populate the type. -/
theorem execDec_cases {t : FrameType} {s s' : State} (h : execDec t s = .next s') :
    (∃ e, decodeAnswer s t = .error e ∧ s' = s.raise e) ∨
      (∃ u, decodeAnswer s t = .ok u ∧ s' = (s.populate t u).ok) := by
  have hc := decodeCheck_next h
  cases hd : decodeAnswer s t with
  | error e =>
    rw [hd] at hc
    exact .inl ⟨e, rfl, (Host.Outcome.next.inj hc).symm⟩
  | ok u =>
    rw [hd] at hc
    exact .inr ⟨u, rfl, (Host.Outcome.next.inj hc).symm⟩

/-- What NEWD can do: be illegal for its type, report DEC's error over the emptied type, or populate the type. -/
theorem execNewd_cases {t : FrameType} {s s' : State} (h : execNewd t s = .next s') :
    (t.constructible = false ∧ s' = s.raise .illegalCommand) ∨
      (t.constructible = true ∧ ∃ e, decodeAnswer s t = .error e ∧ s' = (s.clearFrame t).raise e) ∨
      (t.constructible = true ∧ ∃ u, decodeAnswer s t = .ok u ∧ s' = (s.populate t u).ok) := by
  unfold execNewd at h
  split at h
  · rename_i ht
    have hc := decodeCheck_next h
    cases hd : decodeAnswer s t with
    | error e =>
      rw [hd] at hc
      exact .inr (.inl ⟨ht, e, rfl, (Host.Outcome.next.inj hc).symm⟩)
    | ok u =>
      rw [hd] at hc
      exact .inr (.inr ⟨ht, u, rfl, by simpa using (Host.Outcome.next.inj hc).symm⟩)
  · rename_i ht
    exact .inl ⟨by simpa using ht, (Host.Outcome.next.inj h).symm⟩

/-- With the buffer in canonical form ENC never faults. -/
theorem execEnc_of_wf (t : FrameType) (s : State) (h : Memory.wf s.fbuf) :
    execEnc t s =
      match encodeError t (s.frame t) with
      | some e => .next (s.raise e)
      | none => .next (s.putFrame (frameBytes t (s.frame t)) (frameLength t)).ok := by
  have hr : 0 + frameLength t ≤ 16 := by
    have := frameLength_le t
    omega
  unfold execEnc
  cases encodeError t (s.frame t) with
  | some e => rfl
  | none => exact State.onRange_of_wf _ _ _ _ h hr

/-- With the buffer in canonical form DEC never faults. -/
theorem execDec_of_wf (t : FrameType) (s : State) (h : Memory.wf s.fbuf) :
    execDec t s =
      match decodeAnswer s t with
      | .error e => .next (s.raise e)
      | .ok u => .next (s.populate t u).ok := decodeCheck_of_wf s t _ h

/-- With the buffer in canonical form NEWD of Status or DiagRec never faults. -/
theorem execNewd_of_wf (t : FrameType) (s : State) (ht : t.constructible = true) (h : Memory.wf s.fbuf) :
    execNewd t s =
      match decodeAnswer s t with
      | .error e => .next ((s.clearFrame t).raise e)
      | .ok u => .next ((s.clearFrame t).populate t u).ok :=
  (if_pos ht).trans (decodeCheck_of_wf s t _ h)

/-- With the buffer in canonical form HDR never faults. -/
theorem execHdr_of_wf (t : FrameType) (s : State) (h : Memory.wf s.fbuf) :
    execHdr t s = .next (s.putFrame (header t).toList 3).ok :=
  State.onRange_of_wf _ _ _ _ h (by omega)

/-- Raising an error changes ERR and ERRF alone (60_exceptions.md R182). -/
theorem onlyError_raise (s : State) (e : CmdError) : OnlyError e.code e.detail s (s.raise e) :=
  ⟨fun t => State.raise_frame s e t, fun _ => rfl, rfl, ⟨rfl, rfl⟩, ⟨rfl, rfl, rfl⟩, rfl, rfl⟩

/-- What HDR can do: write the header and the length 3. -/
theorem execHdr_cases {t : FrameType} {s s' : State} (h : execHdr t s = .next s') :
    s' = (s.putFrame (header t).toList 3).ok ∧ ∀ i, i < 3 → i ∈ s.fbuf.map Prod.fst := by
  obtain ⟨hn, hm⟩ := State.onRange_next h
  exact ⟨(Host.Outcome.next.inj hn).symm, by simpa using hm⟩

end Sys2Proof.Machine
end

