-- ==== Sys2Proof/Laws/Decode.lean ====
section
/-! SUPPORT. The command format's laws: a word is its fields (30_encoding.md R71), and what matching a row of the opcode
map says of each field (R73). -/

namespace Sys2Proof

section Fields

variable (op op' : BitVec 4) (ft ft' : BitVec 2) (fidx fidx' : BitVec 4) (rsv rsv' : BitVec 2) (baddr baddr' : BitVec 4)
  (imm imm' : Half)

@[simp] theorem opField_cmdWord : opField (cmdWord op ft fidx rsv baddr imm) = op := by
  ext i hi
  simp only [opField, cmdWord, BitVec.getElem_extractLsb', BitVec.getLsbD_append]
  interval_cases i <;> simp

@[simp] theorem ftField_cmdWord : ftField (cmdWord op ft fidx rsv baddr imm) = ft := by
  ext i hi
  simp only [ftField, cmdWord, BitVec.getElem_extractLsb', BitVec.getLsbD_append]
  interval_cases i <;> simp

@[simp] theorem fidxField_cmdWord : fidxField (cmdWord op ft fidx rsv baddr imm) = fidx := by
  ext i hi
  simp only [fidxField, cmdWord, BitVec.getElem_extractLsb', BitVec.getLsbD_append]
  interval_cases i <;> simp

@[simp] theorem rsvField_cmdWord : rsvField (cmdWord op ft fidx rsv baddr imm) = rsv := by
  ext i hi
  simp only [rsvField, cmdWord, BitVec.getElem_extractLsb', BitVec.getLsbD_append]
  interval_cases i <;> simp

@[simp] theorem baddrField_cmdWord : baddrField (cmdWord op ft fidx rsv baddr imm) = baddr := by
  ext i hi
  simp only [baddrField, cmdWord, BitVec.getElem_extractLsb', BitVec.getLsbD_append]
  interval_cases i <;> simp

@[simp] theorem imm16Field_cmdWord : imm16Field (cmdWord op ft fidx rsv baddr imm) = imm := by
  ext i hi
  simp only [imm16Field, cmdWord, BitVec.getElem_extractLsb', BitVec.getLsbD_append]
  interval_cases i <;> simp

@[simp] theorem imm8Field_cmdWord : imm8Field (cmdWord op ft fidx rsv baddr imm) = imm.extractLsb' 0 8 := by
  ext i hi
  simp only [imm8Field, cmdWord, BitVec.getElem_extractLsb', BitVec.getLsbD_append]
  interval_cases i <;> simp

@[simp] theorem len5Field_cmdWord : len5Field (cmdWord op ft fidx rsv baddr imm) = imm.extractLsb' 0 5 := by
  ext i hi
  simp only [len5Field, cmdWord, BitVec.getElem_extractLsb', BitVec.getLsbD_append]
  interval_cases i <;> simp

/-- Two command words are the same where all their fields are. -/
theorem cmdWord_inj :
    cmdWord op ft fidx rsv baddr imm = cmdWord op' ft' fidx' rsv' baddr' imm' ↔
      op = op' ∧ ft = ft' ∧ fidx = fidx' ∧ rsv = rsv' ∧ baddr = baddr' ∧ imm = imm' := by
  constructor
  · intro h
    refine ⟨?_, ?_, ?_, ?_, ?_, ?_⟩
    · simpa using congrArg opField h
    · simpa using congrArg ftField h
    · simpa using congrArg fidxField h
    · simpa using congrArg rsvField h
    · simpa using congrArg baddrField h
    · simpa using congrArg imm16Field h
  · rintro ⟨rfl, rfl, rfl, rfl, rfl, rfl⟩
    rfl

/-- Masking works field by field. -/
theorem cmdWord_and :
    cmdWord op ft fidx rsv baddr imm &&& cmdWord op' ft' fidx' rsv' baddr' imm' =
      cmdWord (op &&& op') (ft &&& ft') (fidx &&& fidx') (rsv &&& rsv') (baddr &&& baddr') (imm &&& imm') := by
  have key : ((op ++ ft ++ fidx ++ rsv ++ baddr ++ imm) &&& (op' ++ ft' ++ fidx' ++ rsv' ++ baddr' ++ imm') :
      BitVec (4 + 2 + 4 + 2 + 4 + 16)) =
        (op &&& op') ++ (ft &&& ft') ++ (fidx &&& fidx') ++ (rsv &&& rsv') ++ (baddr &&& baddr') ++ (imm &&& imm') := by
    simp only [BitVec.and_append]
  exact key

end Fields

/-- A word is made of its fields (30_encoding.md R71). -/
theorem cmdWord_fields (w : Word) :
    cmdWord (opField w) (ftField w) (fidxField w) (rsvField w) (baddrField w) (imm16Field w) = w := by
  simp only [cmdWord, opField, ftField, fidxField, rsvField, baddrField, imm16Field]
  ext i hi
  simp only [BitVec.getElem_append, BitVec.getElem_extractLsb']
  interval_cases i <;> simp

/-- A row selects a word where, field by field, the masked field is the row's (30_encoding.md R73). -/
theorem selects_iff_fields (r : OpcodeRow) (w : Word) :
    r.selects w = true ↔
      opField w &&& opField r.mask = opField r.pattern ∧ ftField w &&& ftField r.mask = ftField r.pattern ∧
      fidxField w &&& fidxField r.mask = fidxField r.pattern ∧ rsvField w &&& rsvField r.mask = rsvField r.pattern ∧
      baddrField w &&& baddrField r.mask = baddrField r.pattern ∧
      imm16Field w &&& imm16Field r.mask = imm16Field r.pattern := by
  rw [← cmdWord_inj, ← cmdWord_and, cmdWord_fields, cmdWord_fields, cmdWord_fields]
  simp [OpcodeRow.selects]

/-- The opcode OP of a row (30_encoding.md R73). -/
def Opcode.code : Opcode → BitVec 4
  | .clr => 1
  | .setf => 2
  | .getf => 3
  | .enc => 4
  | .dec => 5
  | .newd => 6
  | .hdr => 7
  | .wrb => 8
  | .rdb => 9
  | .setlen => 10
  | .getlen => 11

/-- A word a row selects has the row's opcode. -/
theorem opField_of_selects {r : OpcodeRow} {w : Word} (hr : r ∈ opcodeMap) (h : r.selects w = true) :
    opField w = r.op.code := by
  have hop := ((selects_iff_fields r w).mp h).1
  have key : ∀ r ∈ opcodeMap, opField r.mask = 15 ∧ opField r.pattern = r.op.code := by decide
  rw [(key r hr).1, (key r hr).2] at hop
  have h15 : opField w &&& 15 = opField w := BitVec.and_allOnes
  rw [← hop, h15]

@[simp] theorem ofIndex_index (t : FrameType) : FrameType.ofIndex t.index = t := by cases t <;> rfl

@[simp] theorem index_ofIndex (f : BitVec 2) : (FrameType.ofIndex f).index = f := by
  have key : ∀ f : BitVec 2, (FrameType.ofIndex f).index = f := by decide
  exact key f

/-- NEWD's types are those with FT[0] = 1 (30_encoding.md R73). -/
theorem constructible_iff (t : FrameType) : t.constructible = true ↔ t.index &&& 1 = 1 := by cases t <;> decide

end Sys2Proof
end

