-- ==== Sys2Proof/Laws/PerInstr.lean ====
section
/-! SUPPORT. The family `RowOfWord`: the word of a well-formed command is selected by the row of its own mnemonic and by
no other row of the opcode map (30_encoding.md R73). One lemma per command. -/

namespace Sys2Proof.Laws.RowOfWord

/-- The rows of 30_encoding.md R73 that select the word of `i` are those of `i`'s mnemonic. -/
def Statement (i : Instr) : Prop :=
  i.wellFormed = true → ∀ r ∈ opcodeMap, r.selects (encode i) = true ↔ r.op = i.opcode

/-- Only the row with the word's own opcode can select it; whether it does is a matter of that row's mask alone. -/
theorem of_own_row (i : Instr) (hop : opField (encode i) = i.opcode.code)
    (hown : ∀ r ∈ opcodeMap, r.op = i.opcode → r.selects (encode i) = true) :
    ∀ r ∈ opcodeMap, r.selects (encode i) = true ↔ r.op = i.opcode := by
  intro r hr
  refine ⟨fun h => ?_, hown r hr⟩
  have hc := (opField_of_selects hr h).symm.trans hop
  have inj : ∀ a b : Opcode, a.code = b.code → a = b := by
    intro a b
    cases a <;> cases b <;> decide
  exact inj _ _ hc

theorem clr (t : FrameType) : Statement (.clr t) := fun _ =>
  of_own_row _ (by cases t <;> rfl) (by cases t <;> decide)

theorem setf (t : FrameType) (k : BitVec 4) (x : Half) : Statement (.setf t k x) := fun _ =>
  of_own_row _ (by simp [encode, Instr.opcode, Opcode.code]) (by
    intro r hr ho
    have key : ∀ r ∈ opcodeMap, r.op = .setf → r = ⟨.setf, 0xF03F0000, 0x20000000⟩ := by decide
    obtain rfl := key r hr ho
    rw [selects_iff_fields]
    simp only [encode, opField_cmdWord, ftField_cmdWord, fidxField_cmdWord, rsvField_cmdWord, baddrField_cmdWord,
      imm16Field_cmdWord]
    refine ⟨by decide, ?_, ?_, by decide, by decide, ?_⟩
    · exact BitVec.and_zero
    · exact BitVec.and_zero
    · exact BitVec.and_zero)

theorem getf (t : FrameType) (k : BitVec 4) : Statement (.getf t k) := fun _ =>
  of_own_row _ (by simp [encode, Instr.opcode, Opcode.code]) (by
    revert k
    cases t <;> decide)

theorem enc (t : FrameType) : Statement (.enc t) := fun _ =>
  of_own_row _ (by cases t <;> rfl) (by cases t <;> decide)

theorem dec (t : FrameType) : Statement (.dec t) := fun _ =>
  of_own_row _ (by cases t <;> rfl) (by cases t <;> decide)

theorem newd (t : FrameType) : Statement (.newd t) := fun h =>
  of_own_row _ (by cases t <;> rfl) (by
    cases t
    · cases h
    · decide
    · cases h
    · decide)

theorem hdr (t : FrameType) : Statement (.hdr t) := fun _ =>
  of_own_row _ (by cases t <;> rfl) (by cases t <;> decide)

theorem wrb (a : BitVec 4) (b : Byte) : Statement (.wrb a b) := fun _ =>
  of_own_row _ (by simp [encode, Instr.opcode, Opcode.code]) (by
    intro r hr ho
    have key : ∀ r ∈ opcodeMap, r.op = .wrb → r = ⟨.wrb, 0xFFF0FF00, 0x80000000⟩ := by decide
    obtain rfl := key r hr ho
    rw [selects_iff_fields]
    simp only [encode, opField_cmdWord, ftField_cmdWord, fidxField_cmdWord, rsvField_cmdWord, baddrField_cmdWord,
      imm16Field_cmdWord]
    refine ⟨by decide, by decide, by decide, by decide, BitVec.and_zero, ?_⟩
    have key : ∀ b : Byte, b.setWidth 16 &&& (0xFF00 : Half) = 0 := by decide
    exact key b)

theorem rdb (a : BitVec 4) : Statement (.rdb a) := fun _ =>
  of_own_row _ (by simp [encode, Instr.opcode, Opcode.code]) (by
    revert a
    decide)

theorem setlen (n : BitVec 5) : Statement (.setlen n) := fun _ =>
  of_own_row _ (by simp [encode, Instr.opcode, Opcode.code]) (by
    revert n
    decide)

theorem getlen : Statement .getlen := fun _ => of_own_row _ (by rfl) (by decide)

end Sys2Proof.Laws.RowOfWord
end

