-- ==== Sys2Proof/Laws/Step.lean ====
section
/-! SUPPORT. What the field and buffer commands can do, and what a step can do, said once. -/

namespace Sys2Proof.Machine

/-- What CLR can do. -/
theorem execClr_eq (t : FrameType) (s : State) : execClr t s = .next (s.clearFrame t).ok := rfl

/-- SETF of a field of the type (41_frame_fields.md R141). -/
theorem execSetf_of_lt (t : FrameType) (k : BitVec 4) (x : Half) (s : State) (h : k.toNat < t.fieldCount) :
    execSetf t k x s = .next (s.setFrame t ((s.frame t).set k.toNat ⟨x, true⟩ h)).ok := by
  simp [execSetf, h]

/-- SETF of a field the type does not have (30_encoding.md R74). -/
theorem execSetf_of_ge (t : FrameType) (k : BitVec 4) (x : Half) (s : State) (h : t.fieldCount ≤ k.toNat) :
    execSetf t k x s = .next (s.raise .illegalCommand) := by
  simp [execSetf, Nat.not_lt.mpr h]

/-- GETF of a field of the type (41_frame_fields.md R142). -/
theorem execGetf_of_lt (t : FrameType) (k : BitVec 4) (s : State) (h : k.toNat < t.fieldCount) :
    execGetf t k s = .next (s.setResult (readField (kinds t)[k.toNat] (s.frame t)[k.toNat]).1
      (readField (kinds t)[k.toNat] (s.frame t)[k.toNat]).2).ok := by
  simp [execGetf, h]

/-- GETF of a field the type does not have (30_encoding.md R74). -/
theorem execGetf_of_ge (t : FrameType) (k : BitVec 4) (s : State) (h : t.fieldCount ≤ k.toNat) :
    execGetf t k s = .next (s.raise .illegalCommand) := by
  simp [execGetf, Nat.not_lt.mpr h]

/-- What WRB can do: write the one byte. -/
theorem execWrb_cases {a : BitVec 4} {b : Byte} {s s' : State} (h : execWrb a b s = .next s') :
    s' = { s with fbuf := writeByte s.fbuf (byteAddress a) b }.ok ∧ byteAddress a ∈ s.fbuf.map Prod.fst := by
  obtain ⟨hn, hm⟩ := State.onRange_next h
  exact ⟨(Host.Outcome.next.inj hn).symm, hm 0 (by decide)⟩

/-- What RDB can do: read the one byte. -/
theorem execRdb_cases {a : BitVec 4} {s s' : State} (h : execRdb a s = .next s') :
    s' = (s.setResult ((byteAt s.fbuf (byteAddress a)).setWidth 32) true).ok ∧
      byteAddress a ∈ s.fbuf.map Prod.fst := by
  obtain ⟨hn, hm⟩ := State.onRange_next h
  exact ⟨(Host.Outcome.next.inj hn).symm, hm 0 (by decide)⟩

/-- A byte address a command can encode is one of 0..15 (20_memory.md R53). -/
theorem byteAddress_lt (a : BitVec 4) : byteAddress a < 16 := a.isLt

/-- With the buffer in canonical form WRB never faults. -/
theorem execWrb_of_wf (a : BitVec 4) (b : Byte) (s : State) (h : Memory.wf s.fbuf) :
    execWrb a b s = .next { s with fbuf := writeByte s.fbuf (byteAddress a) b }.ok :=
  State.onRange_of_wf _ _ _ _ h (byteAddress_lt a)

/-- With the buffer in canonical form RDB never faults. -/
theorem execRdb_of_wf (a : BitVec 4) (s : State) (h : Memory.wf s.fbuf) :
    execRdb a s = .next (s.setResult ((byteAt s.fbuf (byteAddress a)).setWidth 32) true).ok :=
  State.onRange_of_wf _ _ _ _ h (byteAddress_lt a)

/-- What SETLEN can do: set the length, or be illegal above 16. -/
theorem execSetlen_cases {n : BitVec 5} {s s' : State} (h : execSetlen n s = .next s') :
    (n.toNat ≤ 16 ∧ s' = { s with flen := n }.ok) ∨ (16 < n.toNat ∧ s' = s.raise .illegalCommand) := by
  unfold execSetlen at h
  split at h
  · rename_i hn
    exact .inl ⟨hn, (Host.Outcome.next.inj h).symm⟩
  · rename_i hn
    exact .inr ⟨Nat.not_le.mp hn, (Host.Outcome.next.inj h).symm⟩

/-- What a step can do (00_scope.md R4): idle, execute a command, reject a word, or take a reset. -/
theorem step_cases {s s' : State} (h : step s = .next s') :
    (s.inputs = [] ∧ s' = s) ∨
      (∃ w rest i, s.inputs = .command w :: rest ∧ decode w = .ok i ∧ exec i (s.takeInput rest) = .next s') ∨
      (∃ w rest e, s.inputs = .command w :: rest ∧ decode w = .error e ∧ s' = (s.takeInput rest).rejectWord e) ∨
      (∃ rest, s.inputs = .reset :: rest ∧ s' = (s.takeInput rest).takeReset) := by
  unfold step at h
  split at h
  · rename_i hi
    exact .inl ⟨hi, (Host.Outcome.next.inj h).symm⟩
  · rename_i w rest hi
    split at h
    · rename_i i hd
      exact .inr (.inl ⟨w, rest, i, hi, hd, h⟩)
    · rename_i e hd
      exact .inr (.inr (.inl ⟨w, rest, e, hi, hd, (Host.Outcome.next.inj h).symm⟩))
  · rename_i rest hi
    exact .inr (.inr (.inr ⟨rest, hi, (Host.Outcome.next.inj h).symm⟩))
  · cases h

/-- Every command keeps the frame buffer's addresses, and so its canonical form. -/
theorem exec_addresses {i : Instr} {s s' : State} (h : exec i s = .next s') :
    s'.fbuf.map Prod.fst = s.fbuf.map Prod.fst := by
  cases i with
  | clr t =>
    obtain rfl := Host.Outcome.next.inj h
    simp
  | setf t k x =>
    by_cases hk : k.toNat < t.fieldCount
    · obtain rfl := Host.Outcome.next.inj ((execSetf_of_lt t k x s hk).symm.trans h)
      simp
    · obtain rfl := Host.Outcome.next.inj ((execSetf_of_ge t k x s (Nat.not_lt.mp hk)).symm.trans h)
      simp
  | getf t k =>
    by_cases hk : k.toNat < t.fieldCount
    · obtain rfl := Host.Outcome.next.inj ((execGetf_of_lt t k s hk).symm.trans h)
      simp
    · obtain rfl := Host.Outcome.next.inj ((execGetf_of_ge t k s (Nat.not_lt.mp hk)).symm.trans h)
      simp
  | enc t =>
    rcases execEnc_cases h with ⟨e, -, rfl⟩ | ⟨-, rfl, -⟩ <;> simp
  | dec t =>
    rcases execDec_cases h with ⟨e, -, rfl⟩ | ⟨u, -, rfl⟩ <;> simp
  | newd t =>
    rcases execNewd_cases h with ⟨-, rfl⟩ | ⟨-, e, -, rfl⟩ | ⟨-, u, -, rfl⟩ <;> simp
  | hdr t =>
    obtain ⟨rfl, -⟩ := execHdr_cases h
    simp
  | wrb a b =>
    obtain ⟨rfl, -⟩ := execWrb_cases h
    simp
  | rdb a =>
    obtain ⟨rfl, -⟩ := execRdb_cases h
    simp
  | setlen n =>
    rcases execSetlen_cases h with ⟨-, rfl⟩ | ⟨-, rfl⟩ <;> simp
  | getlen =>
    obtain rfl := Host.Outcome.next.inj h
    simp

/-- Every command keeps the canonical form of the frame buffer. -/
theorem exec_keeps_wf {i : Instr} {s s' : State} (h : exec i s = .next s') (hw : Memory.wf s.fbuf) :
    Memory.wf s'.fbuf := (exec_addresses h).trans hw

end Sys2Proof.Machine
end

