-- ==== Sys2Proof/Tests/Slice0.lean ====
section
/-! SUPPORT. The model's own tests. Expected values come from spec/95_test_vectors.md (cited by row) or from the rules by
hand. The witnesses show, for every statement that has hypotheses, a concrete state and operands that meet them all. -/

namespace Sys2Proof.Tests

open Sys2Proof Sys2Proof.Machine Sys2Proof.Config

/-! ### Helpers -/

/-- The next state, where there is one. -/
def nextOf : Host.Outcome State Fault Refusal → Option State
  | .next s => some s
  | .fault _ => none
  | .refused _ => none

/-- A buffer that holds `bs` from address 0 on and 0xEE above. -/
def bufferOf (bs : List Byte) : List Host.Cell :=
  (List.range 16).map fun a => (a, bs.getD a 0xEE)

/-- The state after reset with a frame in the buffer. -/
def received (bs : List Byte) : State := { State.reset with fbuf := bufferOf bs, flen := BitVec.ofNat 5 bs.length }

/-- All fields set to these values. -/
def setAll {n : Nat} (xs : Vector Half n) : Vector FieldReg n := Vector.ofFn fun (k : Fin n) => ⟨xs[k], true⟩

/-- V1's Control registers over a buffer of 0xEE. -/
def controlV1 : State :=
  { received [] with control := setAll #v[16000, 8000, 40, 0, 1, 1, 0] }

/-- V2's Status frame in the buffer. -/
def statusV2 : State := received [0x55, 0x31, 0x06, 0x29, 0x09, 0x05, 0x0C, 0x4C, 0x8E]

/-- A Control frame with direction 2 and every pad bit 1 (as DEC10 and DEC12 of 95_test_vectors.md together). -/
def controlBad : State := received [0xAA, 0x30, 0x07, 0x80, 0x3E, 0x40, 0x1F, 0x28, 0xFF, 0xEE]

/-- The same under other policies. -/
def controlBadWith (h : HeaderCheck) (e : EnumDecodeCheck) (p : PadDecodeCheck) : State :=
  { controlBad with policy := ⟨h, e, p⟩ }

/-! ### Well-formedness refuses -/

theorem test_wf_setf_index : (Instr.setf .control 7 1).wellFormed = false := by decide
theorem test_wf_getf_index : (Instr.getf .status 9).wellFormed = false := by decide
theorem test_wf_setlen_length : (Instr.setlen 17).wellFormed = false := by decide
theorem test_wf_newd_type : (Instr.newd .control).wellFormed = false := by decide
theorem test_wf_admits : (Instr.setf .status 8 0xFFFF).wellFormed = true := by decide

/-! ### Decoding: words written out from 30_encoding.md R71, R73 and 95_test_vectors.md -/

-- FLD10 `CLR CTRL`; P4 `CLR DSND`
theorem test_decode_clr : decode 0x18000000 = .ok (.clr .diagSend) := by rfl
-- P1 `SETF CTRL.newPos, 8000`
theorem test_decode_setf : decode 0x20401F40 = .ok (.setf .control 1 8000) := by rfl
-- P2 `GETF STAT.currentSpeed`
theorem test_decode_getf : decode 0x36000000 = .ok (.getf .status 8) := by rfl
-- P4 `ENC DSND`
theorem test_decode_enc : decode 0x48000000 = .ok (.enc .diagSend) := by rfl
-- P2 `DEC STAT`
theorem test_decode_dec : decode 0x54000000 = .ok (.dec .status) := by rfl
-- FLD13 `NEWD STAT`
theorem test_decode_newd : decode 0x64000000 = .ok (.newd .status) := by rfl
-- HDR4 `HDR DREC`
theorem test_decode_hdr : decode 0x7C000000 = .ok (.hdr .diagRec) := by rfl
-- P2 `WRB 8, 0x8E`
theorem test_decode_wrb : decode 0x8008008E = .ok (.wrb 8 0x8E) := by rfl
-- BUF1 `RDB 15`
theorem test_decode_rdb : decode 0x900F0000 = .ok (.rdb 15) := by rfl
-- P2 `SETLEN 9`
theorem test_decode_setlen : decode 0xA0000009 = .ok (.setlen 9) := by rfl
-- BUF3 `GETLEN`
theorem test_decode_getlen : decode 0xB0000000 = .ok .getlen := by rfl

-- the rows of 95_test_vectors.md section 2.6 that are illegal, by name
theorem test_decode_reserved : decode 0x00000000 = .error .reservedOpcode ∧ decode 0xC0000000 = .error .reservedOpcode ∧
    decode 0xF0000000 = .error .reservedOpcode := ⟨rfl, rfl, rfl⟩
theorem test_decode_mustBeZero : decode 0x10000001 = .error .mustBeZero ∧ decode 0x10400000 = .error .mustBeZero ∧
    decode 0x20100000 = .error .mustBeZero ∧ decode 0x40100000 = .error .mustBeZero ∧
    decode 0x30000001 = .error .mustBeZero ∧ decode 0x80000100 = .error .mustBeZero ∧
    decode 0x84000000 = .error .mustBeZero ∧ decode 0x90000001 = .error .mustBeZero ∧
    decode 0xA0000020 = .error .mustBeZero ∧ decode 0xB0000001 = .error .mustBeZero :=
  ⟨rfl, rfl, rfl, rfl, rfl, rfl, rfl, rfl, rfl, rfl⟩
theorem test_decode_newdType : decode 0x60000000 = .error .newdType ∧ decode 0x68000000 = .error .newdType := ⟨rfl, rfl⟩
theorem test_decode_fieldIndex : decode 0x21C00000 = .error .fieldIndex ∧ decode 0x26400000 = .error .fieldIndex ∧
    decode 0x2E000000 = .error .fieldIndex ∧ decode 0x31C00000 = .error .fieldIndex := ⟨rfl, rfl, rfl, rfl⟩
theorem test_decode_length : decode 0xA0000011 = .error .length ∧ decode 0xA000001F = .error .length := ⟨rfl, rfl⟩
theorem test_decode_boundary : decode 0x25C00000 = .ok (.setf .status 7 0) ∧ decode 0x2DC00000 = .ok (.setf .diagRec 7 0) ∧
    decode 0xA0000010 = .ok (.setlen 16) := ⟨rfl, rfl, rfl⟩
theorem test_decodeTableWord : decodeTableWord 32 0x800F00A5 = some (.wrb 15 0xA5) ∧ decodeTableWord 32 0 = none := by
  decide

/-! ### One step of each command -/

-- 41_frame_fields.md R140: only the named type is emptied
theorem test_clr : (nextOf (exec (.clr .control) { controlV1 with status := setAll #v[1, 0, 0, 0, 0, 0, 1, 1, 1] })).map
    (fun s => (s.control[0], s.status[0], s.outputs)) = some (⟨0, false⟩, ⟨1, true⟩, ⟨0, false, 0, 0⟩) := by decide

-- FLD5: an out-of-range value is stored raw
theorem test_setf_raw : (nextOf (exec (.setf .control 2 0xFFFF) State.reset)).map
    (fun s => (s.control[2], s.control[1], s.err)) = some (⟨0xFFFF, true⟩, ⟨0, false⟩, 0) := by decide
-- FLD7: `SETF CTRL[7], 1` is illegal and writes nothing else
theorem test_setf_illegal : (nextOf (step (controlV1.present 0x21C00001))).map
    (fun s => (s.control == controlV1.control, s.outputs)) = some (true, ⟨0, false, 6, 0⟩) := by decide

-- FLD3: s16 is sign-extended
theorem test_getf_signed : (nextOf (exec (.getf .control 1)
    { State.reset with control := setAll #v[0, 0x8000, 0, 0, 0, 0, 0] })).map (·.outputs) =
    some ⟨0xFFFF8000, true, 0, 0⟩ := by decide
-- FLD1: an unset field reads as no value, without error
theorem test_getf_unset : (nextOf (exec (.getf .control 2) { State.reset with res := 7, resv := true })).map (·.outputs) =
    some ⟨0, false, 0, 0⟩ := by decide

-- ENC1 (V1): the source's fixed vector
theorem test_enc_control : (nextOf (exec (.enc .control) controlV1)).map (fun s => (s.fbuf.map (·.2), s.flen, s.err)) =
    some ([0xAA, 0x30, 0x07, 0x80, 0x3E, 0x40, 0x1F, 0x28, 0x00, 0x0C, 0xEE, 0xEE, 0xEE, 0xEE, 0xEE, 0xEE], 10, 0) := by
  decide
-- ENC11: the Status flags of payload byte 2
theorem test_enc_status : (nextOf (exec (.enc .status)
    { State.reset with status := setAll #v[0xFFFF, 1, 1, 1, 1, 0, 255, 255, 255] })).map
    (fun s => ((s.fbuf.take 9).map (·.2), s.flen)) =
    some ([0x55, 0x31, 0x06, 0xFF, 0xFF, 0x3C, 0xFF, 0xFF, 0xFF], 9) := by decide
-- ENC8: the range error of field 2 is reported before the unset field 5, and nothing is written
theorem test_enc_order : (nextOf (exec (.enc .control) { received [] with control :=
    #v[⟨0, true⟩, ⟨0, true⟩, ⟨256, true⟩, ⟨0, true⟩, ⟨0, true⟩, ⟨0, false⟩, ⟨0, true⟩] })).map
    (fun s => (s.outputs, s.flen, s.fbuf.map (·.2))) = some (⟨0, false, 2, 2⟩, 0, List.replicate 16 0xEE) := by decide

-- DEC15 (V2)
theorem test_dec_status : (nextOf (exec (.dec .status) statusV2)).map (fun s => (s.status, s.outputs)) =
    some (setAll #v[2345, 0, 0, 0, 1, 1, 12, 76, 142], ⟨0, false, 0, 0⟩) := by decide
-- DEC14: s16 extremes and direction 3
theorem test_dec_control : (nextOf (exec (.dec .control)
    (received [0xAA, 0x30, 0x07, 0xFF, 0xFF, 0x00, 0x80, 0xFF, 0x00, 0x13]))).map (·.control) =
    some (setAll #v[0xFFFF, 0x8000, 255, 1, 0, 0, 3]) := by decide
-- DEC10, DEC11 and DEC13: direction 2 and pads, by policy
theorem test_dec_policies :
    (nextOf (exec (.dec .control) controlBad)).map (·.outputs) = some ⟨0, false, 5, 6⟩ ∧
    (nextOf (exec (.dec .control) (controlBadWith .all .acceptRaw .ignore))).map (fun s => (s.control[6], s.err)) =
      some (⟨2, true⟩, 0) ∧
    (nextOf (exec (.dec .control) (controlBadWith .all .acceptRaw .rejectNonzero))).map (·.outputs) =
      some ⟨0, false, 5, 15⟩ := by decide

-- FLD13 and FLD14: NEWD populates; a failure leaves the type all unset
theorem test_newd : (nextOf (exec (.newd .status) statusV2)).map (·.status) =
    some (setAll #v[2345, 0, 0, 0, 1, 1, 12, 76, 142]) := by decide
theorem test_newd_fails : (nextOf (exec (.newd .status)
    { statusV2 with flen := 8, status := setAll #v[1, 0, 0, 0, 0, 0, 7, 1, 1] })).map (fun s => (s.status[6], s.outputs)) =
    some (⟨0, false⟩, ⟨0, false, 3, 0⟩) := by decide

-- HDR2: the Status header has the device's sync byte
theorem test_hdr : (nextOf (exec (.hdr .status) controlV1)).map (fun s => ((s.fbuf.take 4).map (·.2), s.flen)) =
    some ([0x55, 0x31, 0x06, 0xEE], 3) := by decide

-- BUF1
theorem test_wrb : (nextOf (exec (.wrb 15 0xA5) controlV1)).map (fun s => ((s.fbuf.drop 14).map (·.2), s.flen)) =
    some ([0xEE, 0xA5], 0) := by decide
-- BUF8: RDB 3 of the encoded frame
theorem test_rdb : (nextOf (exec (.rdb 3) (received [0xAA, 0x30, 0x07, 0x80]))).map (·.outputs) =
    some ⟨0x80, true, 0, 0⟩ := by decide
-- BUF7: after reset, the draw
theorem test_rdb_draw : (nextOf (step (State.reset.withFetchWord 32 0x90000000))).map (·.res) =
    some ((fbufDraw 0 0).setWidth 32) := by rfl

-- BUF2 and BUF4
theorem test_setlen : (nextOf (exec (.setlen 16) State.reset)).map (·.flen) = some 16 := by decide
theorem test_setlen_illegal : (nextOf (step (statusV2.present 0xA0000011))).map (fun s => (s.flen, s.err)) =
    some (9, 6) := by decide
-- P1: GETLEN after ENC CTRL
theorem test_getlen : (nextOf (exec .getlen { State.reset with flen := 10 })).map (·.outputs) =
    some ⟨10, true, 0, 0⟩ := by decide

-- 70_reset_and_hazards.md R200: a reset event; the next inputs stay
theorem test_reset_event : (nextOf (step { controlV1 with flen := 9, err := 6, inputs := [.reset, .command 0xB0000000] })).map
    (fun s => (s.control[0], s.flen, s.err, s.inputs)) = some (⟨0, false⟩, 0, 0, [.command 0xB0000000]) := by decide

/-! ### The assembler (30_encoding.md R77, R78), with words of 95_test_vectors.md -/

-- P3, P4, FLD9
theorem test_assemble : assemble "SETF CTRL.newPos, -32768" = some [0x20408000] ∧
    assemble "SETF CTRL.direction, ANTI_CLOCKWISE ; three" = some [0x21800003] ∧
    assemble "SETF DREC[7], 5" = some [0x2DC00005] ∧ assemble "GETF DREC.sid" = some [0x3C800000] ∧
    assemble "WRB 1, 0x3D" = some [0x8001003D] ∧ assemble "NEWD CTRL" = none := by decide
-- 30_encoding.md R78
theorem test_assemble_pseudo : assemble "SETB CTRL.stallDetectEnable, true" = some [0x21400001] ∧
    assemble "LDFRAME 0x55, 0x31" = some [0x80000055, 0x80010031, 0xA0000002] ∧
    assemble "RDFRAME 2" = some [0x90000000, 0x90010000] ∧ assemble "POLLREQ STAT" = some [0x74000000] := by decide
-- 41_frame_fields.md R144
theorem test_sourceOp : (SourceOp.fromBytes .status [0x55]).commands = some [.wrb 0 0x55, .setlen 1, .dec .status] ∧
    (SourceOp.constructFromBytes .control [0x55]).commands = none := by decide

/-! ### Witnesses: the statements' hypotheses can be met -/

theorem witness_wf : Memory.wf State.reset.fbuf ∧ Memory.wf controlV1.fbuf ∧ Memory.wf statusV2.fbuf := by decide

theorem witness_ResetEventRestoresEverything :
    ({ controlV1 with inputs := [.reset] } : State).inputs = .reset :: [] := rfl

theorem witness_StepRunsDecodedCommand : ∃ (w : Word) (rest : List HostInput) (i : Instr),
    (controlV1.present 0x40000000).inputs = .command w :: rest ∧ decode w = .ok i :=
  ⟨0x40000000, [], .enc .control, rfl, rfl⟩

theorem witness_IllegalWordWritesOnlyTheError : ∃ (w : Word) (rest : List HostInput) (e : IllegalWord),
    (controlV1.present 0x21C00001).inputs = .command w :: rest ∧ decode w = .error e :=
  ⟨0x21C00001, [], .fieldIndex, rfl, rfl⟩

theorem witness_IdleKeepsAllState : State.reset.inputs = [] := rfl

theorem witness_OverlapHasNoStep : ∃ (w w' : Word) (rest : List HostInput),
    ({ controlV1 with inputs := [.overlapping 0x40000000 0xB0000000] } : State).inputs = .overlapping w w' :: rest :=
  ⟨_, _, _, rfl⟩

theorem witness_StepTakesOneInputAndKeepsPolicy : ∃ s', step (controlV1.present 0x40000000) = .next s' := ⟨_, rfl⟩

theorem witness_NoWordMatchesTwoRows : ∃ r ∈ opcodeMap, r.selects 0x800F00A5 = true := by decide

theorem witness_LegalWordsAreExactlyTheOthers :
    (∃ i, decode 0xA0000010 = .ok i) ∧ (∀ i, decode 0xA0000011 ≠ .ok i) := ⟨⟨.setlen 16, rfl⟩, fun _ h => by cases h⟩

theorem witness_DecodeOfEncode : (Instr.setf .status 8 0x8000).wellFormed = true := by decide

theorem witness_EncodeOfDecode : decode 0x2DC00005 = .ok (.setf .diagRec 7 5) := by rfl

/-- Both clauses of SETF's and GETF's statements, at the last field and the first index past it. -/
theorem witness_SetfStoresOneField : (6 : BitVec 4).toNat < FrameType.control.fieldCount ∧
    FrameType.control.fieldCount ≤ (7 : BitVec 4).toNat := by decide

theorem witness_GetfReadsOneField :
    (8 : BitVec 4).toNat < FrameType.status.fieldCount ∧ FrameType.status.fieldCount ≤ (9 : BitVec 4).toNat ∧
    State.reset.status[8].v = false ∧ (controlV1.frame .control)[0].v = true ∧ (kinds .control)[0] = .s16 ∧
    (controlV1.frame .control)[6].v = true ∧ (kinds .control)[6] ≠ .s16 := by decide

theorem witness_IllegalValueIsStoredAndRefusedByEnc :
    (6 : BitVec 4).toNat < FrameType.control.fieldCount ∧ legal (kinds .control)[6] 2 = false := by decide

theorem witness_NewdConstructsFromBytes :
    FrameType.status.constructible = true ∧ Memory.wf statusV2.fbuf ∧ HeaderAccepted .status statusV2 ∧
    EnumsAccepted .status statusV2 ∧ PadsAccepted .status statusV2 := by decide

theorem witness_NewdConstructsFromBytes_error : ∃ d, exec (.dec .diagRec) statusV2 = .next d ∧ d.err ≠ 0 :=
  ⟨_, rfl, by decide⟩

theorem witness_IllFormedCommandIsIllegal : (Instr.newd .diagSend).wellFormed = false ∧
    (Instr.setlen 31).wellFormed = false ∧ (Instr.getf .control 15).wellFormed = false := by decide

theorem witness_EncEncodesOrReportsFirstField : Memory.wf controlV1.fbuf ∧ AllLegal .control controlV1 := by decide

/-- Fields 0..5 set and legal, field 6 unset (ENC5) or out of range (ENC9). -/
theorem witness_EncEncodesOrReportsFirstField_error :
    (∀ r ∈ [(⟨0, false⟩ : FieldReg), ⟨2, true⟩], ∀ j : Fin 7, j < 6 →
      (controlV1.control.set 6 r)[j].v = true ∧ legal (kinds .control)[j] (controlV1.control.set 6 r)[j].fv = true) ∧
    legal (kinds .control)[6] 2 = false := by decide

theorem witness_PackLosesNothing : ∀ k : Fin 7,
    legal (kinds .control)[k] (#v[0x8000, 0x7FFF, 255, 1, 1, 1, 3] : Vector Half 7)[k] = true := by decide

theorem witness_DecDecodesOrReportsFirstError_length : (received []).flen.toNat ≠ frameLength .status := by decide

/-- The type identifier differs and the sync byte does not (DEC6); under `LENGTH_ONLY` the length byte differs (DEC8). -/
theorem witness_DecDecodesOrReportsFirstError_header :
    (let s := received [0xAA, 0x31, 0x07, 0x80, 0x3E, 0x40, 0x1F, 0x28, 0x00, 0x0C]
     s.flen.toNat = frameLength .control ∧ s.policy.header = .all ∧
      (∀ j : Fin 3, j < 1 → byteAt s.fbuf j = (header .control)[j]) ∧ byteAt s.fbuf 1 ≠ (header .control)[1]) ∧
    (let s := { received [0xAA, 0x30, 0x06, 0x80, 0x3E, 0x40, 0x1F, 0x28, 0x00, 0x0C] with
                  policy := ⟨.lengthOnly, .reject, .ignore⟩ }
     s.flen.toNat = frameLength .control ∧ s.policy.header = .lengthOnly ∧ byteAt s.fbuf 2 ≠ (header .control)[2]) := by
  decide

theorem witness_DecDecodesOrReportsFirstError_value :
    HeaderAccepted .control controlBad ∧ controlBad.policy.enums = .reject ∧
    (∀ j : Fin 7, j < 6 → (kinds .control)[j].isEnum = true →
      legal (kinds .control)[j] (unpack .control (payloadOf controlBad))[j] = true) ∧
    (kinds .control)[6].isEnum = true ∧ legal (kinds .control)[6] (unpack .control (payloadOf controlBad))[6] = false := by
  decide

theorem witness_DecDecodesOrReportsFirstError_pads :
    let s := controlBadWith .lengthOnly .acceptRaw .rejectNonzero
    HeaderAccepted .control s ∧ EnumsAccepted .control s ∧ s.policy.pads = .rejectNonzero ∧
      padBits .control (payloadOf s) ≠ 0 := by decide

theorem witness_DecDecodesOrReportsFirstError_accepted :
    HeaderAccepted .status statusV2 ∧ EnumsAccepted .status statusV2 ∧ PadsAccepted .status statusV2 := by decide

theorem witness_EncodeThenDecodeKeepsFields : Memory.wf controlV1.fbuf ∧ AllLegal .control controlV1 := by decide

/-- Zero pads (the frame itself is written back) and, on the second frame, pads that are not zero (DEC12). -/
theorem witness_DecodeThenEncodeWritesBack :
    (Memory.wf statusV2.fbuf ∧ statusV2.policy.header = .all ∧ statusV2.policy.enums = .reject ∧
      padBits .status (payloadOf statusV2) = 0 ∧ (nextOf (exec (.dec .status) statusV2)).map (·.err) = some 0) ∧
    (let s := received [0xAA, 0x30, 0x07, 0x80, 0x3E, 0x40, 0x1F, 0x28, 0xFF, 0xEC]
     padBits .control (payloadOf s) ≠ 0 ∧ (nextOf (exec (.dec .control) s)).map (·.err) = some 0) := by decide

theorem witness_DecIsIdempotent : (∃ d, exec (.dec .status) statusV2 = .next d) ∧
    ∃ d, exec (.dec .control) controlBad = .next d := ⟨⟨_, rfl⟩, ⟨_, rfl⟩⟩

theorem witness_DecReadsOnlyTheFrame :
    let s := { statusV2 with res := 1, fbuf := writeByte statusV2.fbuf 9 0x77 }
    statusV2.flen = s.flen ∧ statusV2.policy = s.policy ∧ statusV2.fbuf ≠ s.fbuf ∧
      (∀ a : Fin 9, readByte statusV2.fbuf a = readByte s.fbuf a) ∧
      (nextOf (exec (.dec .status) statusV2)).isSome = true ∧ (nextOf (exec (.dec .status) s)).isSome = true := by decide

theorem witness_IntegerConversions : (-32768 : Int) ≤ -32768 ∧ (32767 : Int) ≤ 32767 ∧
    FieldKind.dir ≠ .s16 ∧ legal .dir 3 = true ∧ legal .u8 255 = true ∧ legal .hvc 1 = true ∧ legal .b1 1 = true := by
  decide

theorem witness_SetlenSetsTheLength : (16 : BitVec 5).toNat ≤ 16 ∧ 17 ≤ (17 : BitVec 5).toNat := by decide

theorem witness_LdframeLoadsBytes : 1 ≤ ([0x55] : List Byte).length ∧ (List.replicate 16 (0x55 : Byte)).length ≤ 16 ∧
    Memory.wf controlV1.fbuf := by decide

/-- Commands of every kind that WriteSummary's clauses speak of, each changing what it may. -/
theorem witness_WriteSummary :
    (nextOf (exec (.setf .control 2 5) State.reset)).map (·.control[2]) ≠ some State.reset.control[2] ∧
    (nextOf (exec (.hdr .status) controlV1)).map (fun s => readByte s.fbuf 2) ≠ some (readByte controlV1.fbuf 2) ∧
    (nextOf (exec (.hdr .status) controlV1)).map (·.flen) ≠ some controlV1.flen ∧
    (nextOf (exec (.rdb 0) controlV1)).map (·.res) ≠ some controlV1.res := by decide

theorem witness_ErrorsArePrecise : (∃ s', exec (.enc .control) State.reset = .next s' ∧ s'.err ≠ 0) ∧
    ∃ s', exec (.newd .diagRec) statusV2 = .next s' ∧ s'.err ≠ 0 := ⟨⟨_, rfl, by decide⟩, ⟨_, rfl, by decide⟩⟩

theorem witness_SessionRestartByClr :
    FrameType.control ∈ [FrameType.control, .diagSend] ∧ FrameType.status ∉ [FrameType.control, .diagSend] := by decide

/-- A state that meets the invariant with a set field, an error and a command to come. -/
theorem witness_Inv : ({ controlV1 with err := 2, errf := 8, flen := 16, inputs := [.command 0x40000000, .reset] } : State).Inv where
  buffer := by decide
  unset := by
    intro t
    cases t <;> decide
  length := by decide
  errors := by decide
  result := by decide

theorem witness_StepKeepsInvariant : ∃ s',
    step { controlV1 with err := 2, errf := 8, flen := 16, inputs := [.command 0x40000000, .reset] } = .next s' :=
  ⟨_, rfl⟩

theorem witness_DutifulStepCompletes : Memory.wf (controlV1.present 0).fbuf ∧
    ∀ x rest, (controlV1.present 0).inputs = x :: rest → x.dutiful = true :=
  ⟨by decide, fun x rest h => by
    cases h
    rfl⟩

theorem witness_DutifulRunsAreSafe :
    HostDuty { controlV1 with err := 2, errf := 8, flen := 16, inputs := [.command 0x40000000, .reset] } := by
  decide

end Sys2Proof.Tests
end

section
/-! ## Family 10_state: the state after reset, the legal sets, and the error registers -/

namespace Sys2Proof.Machine

/-! ### The state after reset (10_state.md R34) -/

/-- A register set of unset fields reads as unset and 0 at every field: after reset, a reset event or CLR. -/
theorem allUnset_of_frame_eq_replicate {t : FrameType} {s : State}
    (h : s.frame t = Vector.replicate t.fieldCount .unset) : AllUnset t s := by
  intro k
  have hk : (s.frame t)[k] = FieldReg.unset := by simp [h]
  rw [hk]
  exact ⟨rfl, rfl⟩

/-! ### The legal sets (10_state.md R23) -/

/-- Every s16 value is in the range of a signed 16-bit integer. -/
theorem fieldValue_s16_bounds (x : Half) : -32768 ≤ fieldValue .s16 x ∧ fieldValue .s16 x ≤ 32767 := by
  have hlow : -2 ^ (16 - 1) ≤ x.toInt := BitVec.le_toInt x
  have hhigh : x.toInt < 2 ^ (16 - 1) := BitVec.toInt_lt
  simp only [fieldValue]
  omega

theorem legal_u8_iff (x : Half) : legal .u8 x = true ↔ fieldValue .u8 x ≤ 255 := by
  simp only [legal, fieldValue, decide_eq_true_eq]
  omega

theorem legal_b1_iff (x : Half) : legal .b1 x = true ↔ fieldValue .b1 x ≤ 1 := by
  simp only [legal, fieldValue, decide_eq_true_eq]
  omega

theorem legal_dir_iff (x : Half) :
    legal .dir x = true ↔ fieldValue .dir x = 0 ∨ fieldValue .dir x = 1 ∨ fieldValue .dir x = 3 := by
  simp only [legal, fieldValue, decide_eq_true_eq]
  omega

theorem legal_hvc_iff (x : Half) : legal .hvc x = true ↔ fieldValue .hvc x = 0 ∨ fieldValue .hvc x = 1 := by
  simp only [legal, fieldValue, decide_eq_true_eq]
  omega

/-! ### Other contents of ERR and ERRF

What a command reads does not see ERR and ERRF; an update of another part of the state commutes with replacing them;
`raise` and `ok`, with one of which every command ends, make the replacement vanish. -/

/-- The state with other contents of ERR and ERRF (10_state.md R32). -/
def State.withError (s : State) (e : BitVec 3) (f : BitVec 4) : State := { s with err := e, errf := f }

section
variable (s : State) (e : BitVec 3) (f : BitVec 4)

@[simp] theorem State.withError_frame (t : FrameType) : (s.withError e f).frame t = s.frame t := by cases t <;> rfl
@[simp] theorem State.withError_fbuf : (s.withError e f).fbuf = s.fbuf := rfl
@[simp] theorem State.withError_flen : (s.withError e f).flen = s.flen := rfl

@[simp] theorem State.withError_onRange (a n : Nat) (k : Host.Outcome State Fault Refusal) :
    (s.withError e f).onRange a n k = s.onRange a n k := rfl

/-- DEC's checks read FLEN, FBUF and the policy alone (40_codec.md R111). -/
@[simp] theorem State.withError_decodeCheck (t : FrameType)
    (commit : Except CmdError (Vector Half t.fieldCount) → Host.Outcome State Fault Refusal) :
    (s.withError e f).decodeCheck t commit = s.decodeCheck t commit := rfl

@[simp] theorem State.withError_setFrame (t : FrameType) (fs : Vector FieldReg t.fieldCount) :
    (s.withError e f).setFrame t fs = (s.setFrame t fs).withError e f := by cases t <;> rfl

@[simp] theorem State.withError_clearFrame (t : FrameType) :
    (s.withError e f).clearFrame t = (s.clearFrame t).withError e f := State.withError_setFrame s e f t _

@[simp] theorem State.withError_populate (t : FrameType) (u : Vector Half t.fieldCount) :
    (s.withError e f).populate t u = (s.populate t u).withError e f := State.withError_setFrame s e f t _

@[simp] theorem State.withError_setResult (w : Word) (b : Bool) :
    (s.withError e f).setResult w b = (s.setResult w b).withError e f := rfl

@[simp] theorem State.withError_putFrame (bs : List Byte) (n : Nat) :
    (s.withError e f).putFrame bs n = (s.putFrame bs n).withError e f := rfl

/-- Raising an error overwrites both registers (60_exceptions.md R183). -/
@[simp] theorem State.withError_raise (x : CmdError) : (s.withError e f).raise x = s.raise x := rfl

/-- Completing overwrites both registers (60_exceptions.md R183). -/
@[simp] theorem State.withError_ok : (s.withError e f).ok = s.ok := rfl

/-- No command's outcome depends on what ERR and ERRF held before it. The last four commands update the state field by
field, so the replaced registers are gone by computation. -/
theorem exec_withError (i : Instr) : exec i (s.withError e f) = exec i s := by
  cases i with
  | clr t => simp [exec, execClr_eq]
  | setf t k x =>
    by_cases hk : k.toNat < t.fieldCount
    · simp [exec, execSetf_of_lt _ _ _ _ hk]
    · simp [exec, execSetf_of_ge _ _ _ _ (Nat.not_lt.mp hk)]
  | getf t k =>
    by_cases hk : k.toNat < t.fieldCount
    · simp [exec, execGetf_of_lt _ _ _ hk]
    · simp [exec, execGetf_of_ge _ _ _ (Nat.not_lt.mp hk)]
  | enc t => simp [exec, execEnc]
  | dec t => simp [exec, execDec]
  | newd t => simp [exec, execNewd]
  | hdr t => simp [exec, execHdr]
  | wrb a b => rfl
  | rdb a => rfl
  | setlen n => rfl
  | getlen => rfl

end

/-! ### The obligations -/

/-- Settles O42: ERR and ERRF are replaced by `withError`, which no command sees. -/
theorem errorsAreNotSticky : Obligations.ErrorsAreNotSticky := by
  unfold Obligations.ErrorsAreNotSticky
  intro i s e f
  exact exec_withError s e f i

/-- Settles O1, from the register sets and the drawn buffer that reset leaves. -/
theorem resetLeavesStatedValues : Obligations.ResetLeavesStatedValues := by
  unfold Obligations.ResetLeavesStatedValues
  exact ⟨fun t => allUnset_of_frame_eq_replicate (State.reset_frame t),
    fun a ha => readByte_drawnBuffer 0 a ha, rfl, rfl, rfl, rfl, rfl⟩

/-- Settles O33, kind by kind. -/
theorem legalSets : Obligations.LegalSets := by
  unfold Obligations.LegalSets
  intro x
  exact ⟨⟨rfl, fieldValue_s16_bounds x⟩, legal_u8_iff x, legal_b1_iff x, legal_dir_iff x, legal_hvc_iff x⟩

end Sys2Proof.Machine
end

section
/-! ## Family 30_encoding: the opcode map and the illegal words, the payload layouts, stored illegal values, LDFRAME -/

namespace Sys2Proof

/-! ### Rows of the opcode map (30_encoding.md R73) -/

/-- The commands' opcodes differ pairwise. -/
theorem Opcode.code_injective {a b : Opcode} (h : a.code = b.code) : a = b := by
  revert h
  cases a <;> cases b <;> decide

/-- A mnemonic has one row in the opcode map. -/
theorem row_eq_of_op_eq {r r' : OpcodeRow} (hr : r ∈ opcodeMap) (hr' : r' ∈ opcodeMap) (h : r.op = r'.op) : r = r' := by
  have key : ∀ r ∈ opcodeMap, ∀ r' ∈ opcodeMap, r.op = r'.op → r = r' := by decide
  exact key r hr r' hr' h

/-- Every mnemonic has a row in the opcode map. -/
theorem exists_row (op : Opcode) : ∃ r ∈ opcodeMap, r.op = op := by cases op <;> decide

/-- Two rows that select one word have its opcode, and so are one row. -/
theorem row_eq_of_selects {w : Word} {r r' : OpcodeRow} (hr : r ∈ opcodeMap) (hr' : r' ∈ opcodeMap)
    (h : r.selects w = true) (h' : r'.selects w = true) : r = r' :=
  row_eq_of_op_eq hr hr'
    (Opcode.code_injective ((opField_of_selects hr h).symm.trans (opField_of_selects hr' h')))

/-- The decoder's search finds exactly the row that selects the word: its order does not matter. -/
theorem find_row_eq_some_iff {w : Word} {r : OpcodeRow} :
    opcodeMap.find? (·.selects w) = some r ↔ r ∈ opcodeMap ∧ r.selects w = true := by
  constructor
  · intro h
    exact ⟨List.mem_of_find?_eq_some h, List.find?_some (p := fun r : OpcodeRow => r.selects w) h⟩
  · rintro ⟨hr, hs⟩
    cases hf : opcodeMap.find? (·.selects w) with
    | none => exact absurd hs (List.find?_eq_none.mp hf r hr)
    | some r' =>
      have hs' : r'.selects w = true := List.find?_some (p := fun r : OpcodeRow => r.selects w) hf
      rw [row_eq_of_selects hr (List.mem_of_find?_eq_some hf) hs hs']

/-- A word of a row decodes to the row's command where its operands pass the value checks (30_encoding.md R74). -/
theorem decode_of_selects {w : Word} {r : OpcodeRow} (hr : r ∈ opcodeMap) (h : r.selects w = true) :
    decode w = (valueError (operandsOf r.op w)).elim (.ok (operandsOf r.op w)) .error := by
  unfold decode
  rw [find_row_eq_some_iff.mpr ⟨hr, h⟩]
  dsimp only
  cases valueError (operandsOf r.op w) <;> rfl

/-- A word that no row selects is no command. -/
theorem decode_of_no_row {w : Word} (h : ∀ r ∈ opcodeMap, ¬ r.selects w = true) :
    decode w = .error (unmatchedReason w) := by
  have hf : opcodeMap.find? (·.selects w) = none := List.find?_eq_none.mpr h
  unfold decode
  rw [hf]

/-- A word is a command where a row selects it and its operands pass that row's value checks. -/
theorem exists_decode_iff (w : Word) :
    (∃ i, decode w = .ok i) ↔ ∃ r ∈ opcodeMap, r.selects w = true ∧ valueError (operandsOf r.op w) = none := by
  constructor
  · rintro ⟨i, hi⟩
    by_cases hrow : ∃ r ∈ opcodeMap, r.selects w = true
    · obtain ⟨r, hr, hs⟩ := hrow
      refine ⟨r, hr, hs, ?_⟩
      rw [decode_of_selects hr hs] at hi
      cases hv : valueError (operandsOf r.op w) with
      | none => rfl
      | some e => simp [hv] at hi
    · rw [decode_of_no_row fun r hr hs => hrow ⟨r, hr, hs⟩] at hi
      cases hi
  · rintro ⟨r, hr, hs, hv⟩
    exact ⟨operandsOf r.op w, by rw [decode_of_selects hr hs, hv, Option.elim_none]⟩

/-! ### The masks of R73 as bit ranges -/

/-- Two words have the same bits in a range where every bit of the range is the same. -/
theorem extractLsb'_eq_iff (w v : Word) (a n : Nat) :
    w.extractLsb' a n = v.extractLsb' a n ↔ ∀ i, a ≤ i → i < a + n → w.getLsbD i = v.getLsbD i := by
  constructor
  · intro h i ha hn
    have hi := congrArg (fun x => x.getLsbD (i - a)) h
    have hlt : i - a < n := by omega
    simpa [hlt, Nat.add_sub_cancel' ha] using hi
  · intro h
    ext i hi
    rw [BitVec.getElem_extractLsb', BitVec.getElem_extractLsb', h (a + i) (by omega) (by omega)]

/-- The bit ranges that the mask of a mnemonic's row covers, as lowest bit and width (30_encoding.md R73). -/
def Opcode.maskRanges : Opcode → List (Nat × Nat)
  | .clr => [(28, 4), (0, 26)]
  | .setf => [(28, 4), (16, 6)]
  | .getf => [(28, 4), (0, 22)]
  | .enc => [(28, 4), (0, 26)]
  | .dec => [(28, 4), (0, 26)]
  | .newd => [(28, 4), (0, 26), (26, 1)]
  | .hdr => [(28, 4), (0, 26)]
  | .wrb => [(28, 4), (20, 8), (8, 8)]
  | .rdb => [(28, 4), (20, 8), (0, 16)]
  | .setlen => [(28, 4), (5, 23)]
  | .getlen => [(28, 4), (0, 28)]

/-- The mask of a row has exactly the bits of its ranges, and its pattern no bit outside them. -/
theorem mask_bits_iff {r : OpcodeRow} (hr : r ∈ opcodeMap) (i : Nat) (hi : i < 32) :
    (r.mask.getLsbD i = true ↔ ∃ p ∈ r.op.maskRanges, p.1 ≤ i ∧ i < p.1 + p.2) ∧
      (r.mask.getLsbD i = false → r.pattern.getLsbD i = false) := by
  have key : ∀ r ∈ opcodeMap, ∀ i < 32,
      (r.mask.getLsbD i = true ↔ ∃ p ∈ r.op.maskRanges, p.1 ≤ i ∧ i < p.1 + p.2) ∧
      (r.mask.getLsbD i = false → r.pattern.getLsbD i = false) := by decide
  exact key r hr i hi

/-- Every range of a row lies in the word. -/
theorem maskRanges_le (op : Opcode) : ∀ p ∈ op.maskRanges, p.1 + p.2 ≤ 32 := by cases op <;> decide

/-- A row selects a word where, range by range, the word has the bits of the row's pattern. -/
theorem selects_iff_ranges {r : OpcodeRow} (hr : r ∈ opcodeMap) (w : Word) :
    r.selects w = true ↔ ∀ p ∈ r.op.maskRanges, w.extractLsb' p.1 p.2 = r.pattern.extractLsb' p.1 p.2 := by
  simp only [OpcodeRow.selects, beq_iff_eq, extractLsb'_eq_iff]
  constructor
  · intro h p hp i ha hn
    have hi : i < 32 := by
      have := maskRanges_le r.op p hp
      omega
    have hm : r.mask.getLsbD i = true := (mask_bits_iff hr i hi).1.mpr ⟨p, hp, ha, hn⟩
    rw [← h, BitVec.getLsbD_and, hm, Bool.and_true]
  · intro h
    refine BitVec.eq_of_getLsbD_eq fun i hi => ?_
    rw [BitVec.getLsbD_and]
    obtain ⟨hmask, hpat⟩ := mask_bits_iff hr i hi
    cases hm : r.mask.getLsbD i with
    | false => rw [Bool.and_false, hpat hm]
    | true =>
      obtain ⟨p, hp, ha, hn⟩ := hmask.mp hm
      rw [Bool.and_true, h p hp i ha hn]

/-- The bits besides OP that a mnemonic fixes: its must-be-zero bits are 0, and FT[0] is 1 for NEWD
(30_encoding.md R73). -/
def Opcode.FixedBits (w : Word) : Opcode → Prop
  | .clr | .enc | .dec | .hdr => w.extractLsb' 0 26 = 0
  | .setf => w.extractLsb' 16 6 = 0
  | .getf => w.extractLsb' 0 22 = 0
  | .newd => w.extractLsb' 0 26 = 0 ∧ w.extractLsb' 26 1 = 1
  | .wrb => w.extractLsb' 20 8 = 0 ∧ w.extractLsb' 8 8 = 0
  | .rdb => w.extractLsb' 20 8 = 0 ∧ w.extractLsb' 0 16 = 0
  | .setlen => w.extractLsb' 5 23 = 0
  | .getlen => w.extractLsb' 0 28 = 0

/-- A row selects a word that has its mnemonic's opcode and fixed bits. -/
theorem selects_iff_fixedBits {r : OpcodeRow} (hr : r ∈ opcodeMap) (w : Word) :
    r.selects w = true ↔ opField w = r.op.code ∧ r.op.FixedBits w := by
  rw [selects_iff_ranges hr]
  simp only [opcodeMap, List.mem_cons, List.not_mem_nil, or_false] at hr
  rcases hr with rfl | rfl | rfl | rfl | rfl | rfl | rfl | rfl | rfl | rfl | rfl <;>
    simp [Opcode.maskRanges, Opcode.FixedBits, Opcode.code, opField]

/-! ### The words that are no command (30_encoding.md R75) -/

/-- A word is a command where some mnemonic has its opcode and fixed bits and its operands pass the value checks. -/
theorem exists_decode_iff_opcode (w : Word) :
    (∃ i, decode w = .ok i) ↔
      ∃ op : Opcode, opField w = op.code ∧ op.FixedBits w ∧ valueError (operandsOf op w) = none := by
  rw [exists_decode_iff]
  constructor
  · rintro ⟨r, hr, hs, hv⟩
    obtain ⟨hop, hfix⟩ := (selects_iff_fixedBits hr w).mp hs
    exact ⟨r.op, hop, hfix, hv⟩
  · rintro ⟨op, hop, hfix, hv⟩
    obtain ⟨r, hr, rfl⟩ := exists_row op
    exact ⟨r, hr, (selects_iff_fixedBits hr w).mpr ⟨hop, hfix⟩, hv⟩

/-- An opcode that no mnemonic has is reserved (30_encoding.md R75 (a)). -/
theorem exists_code_or_reserved (c : BitVec 4) : (∃ op : Opcode, c = op.code) ∨ c = 0 ∨ 12 ≤ c.toNat := by
  by_cases hres : c = 0 ∨ 12 ≤ c.toNat
  · exact .inr hres
  · have key : ∀ c : BitVec 4, ¬ (c = 0 ∨ 12 ≤ c.toNat) → ∃ op ∈ opcodeMap.map (·.op), c = op.code := by decide
    obtain ⟨op, -, hop⟩ := key c hres
    exact .inl ⟨op, hop⟩

/-- NEWD's type bit: FT[0] is 1 where FT is neither 0 nor 2 (30_encoding.md R75 (c)). -/
theorem ftLowBit_eq_one_iff (w : Word) : w.extractLsb' 26 1 = 1#1 ↔ ¬ (ftField w = 0 ∨ ftField w = 2) := by
  have key : ∀ ft : BitVec 2, ft.extractLsb' 0 1 = 1 ↔ ¬ (ft = 0 ∨ ft = 2) := by decide
  have hbit : (ftField w).extractLsb' 0 1 = w.extractLsb' 26 1 := by
    ext i hi
    simp [ftField, Nat.le_of_lt hi]
  rw [← hbit]
  exact key _

/-- A word with a mnemonic's opcode is illegal by R75 exactly where it lacks the fixed bits or fails a value check. -/
theorem illegalByRule_iff_of_opField {w : Word} {op : Opcode} (h : opField w = op.code) :
    illegalByRule w ↔ ¬ (op.FixedBits w ∧ valueError (operandsOf op w) = none) := by
  rw [illegalByRule, mustBeZeroBitSet, h, not_and_or]
  cases op with
  | clr | setf | getf | enc | dec | hdr | getlen =>
    simp [Opcode.code, Opcode.FixedBits, operandsOf, valueError]
  | newd => simp [Opcode.code, Opcode.FixedBits, ftLowBit_eq_one_iff, operandsOf, valueError, -not_and, not_and_or]
  | wrb | rdb => simp [Opcode.code, Opcode.FixedBits, operandsOf, valueError, -not_and, not_and_or]
  | setlen =>
    have hlen : 17 ≤ (len5Field w).toNat ↔ 16 < (len5Field w).toNat := Iff.rfl
    simp [Opcode.code, Opcode.FixedBits, operandsOf, valueError, hlen]

/-! ### The obligations on decoding -/

/-- Settles O9: both rows have the word's opcode, and a mnemonic has one row. -/
theorem noWordMatchesTwoRows : Obligations.NoWordMatchesTwoRows := by
  unfold Obligations.NoWordMatchesTwoRows
  intro w r r' hr hr' h h'
  exact row_eq_of_selects hr hr' h h'

/-- Settles O8, opcode by opcode: a mnemonic's word is a command exactly where R75 (b) to (e) fail, and an opcode
without a mnemonic is R75 (a). -/
theorem legalWordsAreExactlyTheOthers : Obligations.LegalWordsAreExactlyTheOthers := by
  unfold Obligations.LegalWordsAreExactlyTheOthers
  intro w
  rw [exists_decode_iff_opcode]
  constructor
  · rintro ⟨op, hop, hlegal⟩
    rw [illegalByRule_iff_of_opField hop, not_not]
    exact hlegal
  · intro hw
    rcases exists_code_or_reserved (opField w) with ⟨op, hop⟩ | hres
    · rw [illegalByRule_iff_of_opField hop, not_not] at hw
      exact ⟨op, hop, hw⟩
    · exact absurd (Or.inl hres) hw

end Sys2Proof

namespace Sys2Proof.Machine

/-! ### Values outside the legal sets (30_encoding.md R76) -/

/-- SETF stores the value raw and marks the field set, whatever the value (41_frame_fields.md R141). -/
theorem execSetf_stores (t : FrameType) (k : BitVec 4) (x : Half) (s : State) (h : k.toNat < t.fieldCount) :
    ∃ s' : State, execSetf t k x s = .next s' ∧ (s'.frame t)[k.toNat] = ⟨x, true⟩ :=
  ⟨_, execSetf_of_lt t k x s h, by simp⟩

/-- GETF of a set field returns its value, extended by the field's kind (41_frame_fields.md R142). -/
theorem execGetf_of_set {t : FrameType} {k : BitVec 4} {s : State} {x : Half} (h : k.toNat < t.fieldCount)
    (hset : (s.frame t)[k.toNat] = ⟨x, true⟩) :
    execGetf t k s = .next (s.setResult (extendField (kinds t)[k.toNat] x) true).ok := by
  rw [execGetf_of_lt t k s h, hset]
  rfl

/-- A value that is not legal belongs to a kind that GETF zero-extends: every s16 value is legal (10_state.md R23). -/
theorem extendField_toNat_of_not_legal {kind : FieldKind} {x : Half} (h : legal kind x = false) :
    (extendField kind x).toNat = x.toNat := by
  cases kind with
  | s16 => cases h
  | u8 | b1 | dir | hvc => exact BitVec.toNat_setWidth_of_le (by decide)

/-- A field that is not legal makes ENC report EncUnset or EncRange (40_codec.md R110). FBUF is not accessed, so its
form does not matter. -/
theorem execEnc_of_not_legal {t : FrameType} {s : State} {k : Nat} (hk : k < t.fieldCount)
    (h : legal (kinds t)[k] (s.frame t)[k].fv = false) :
    ∃ e : CmdError, execEnc t s = .next (s.raise e) ∧ (e.code = 1 ∨ e.code = 2) := by
  cases he : encodeError t (s.frame t) with
  | none =>
    obtain ⟨-, hlegal⟩ := (encodeError_eq_none_iff t s).mp he ⟨k, hk⟩
    exact absurd (hlegal.symm.trans h) (by decide)
  | some e =>
    refine ⟨e, by simp only [execEnc, he], ?_⟩
    obtain ⟨j, rfl | rfl⟩ := encodeError_cases t _ e he
    · exact .inl rfl
    · exact .inr rfl

/-! ### LDFRAME (30_encoding.md R78) -/

/-- After commands that complete, the rest runs from the state they left. -/
theorem runCommands_append {is js : List Instr} {s s' : State} (h : runCommands is s = .next s') :
    runCommands (is ++ js) s = runCommands js s' := by
  induction is generalizing s with
  | nil =>
    obtain rfl := Host.Outcome.next.inj h
    rfl
  | cons i is ih =>
    rw [runCommands] at h
    rw [List.cons_append, runCommands]
    cases hi : exec i s with
    | next u =>
      rw [hi] at h
      exact ih h
    | fault r => simp [hi] at h
    | refused r => simp [hi] at h

/-- WRB to address `a` of the buffer (42_buffer.md R160), with the address as a number. -/
theorem exec_wrb_ofNat {a : Nat} (ha : a < 16) (b : Byte) (s : State) (h : Memory.wf s.fbuf) :
    exec (.wrb (BitVec.ofNat 4 a) b) s = .next { s with fbuf := writeByte s.fbuf a b }.ok := by
  have haddr : byteAddress (BitVec.ofNat 4 a) = a := Nat.mod_eq_of_lt ha
  have hwrb := execWrb_of_wf (BitVec.ofNat 4 a) b s h
  rwa [haddr] at hwrb

/-- The WRB commands of LDFRAME, where there is one, write their bytes as one multi-byte write and complete
(30_encoding.md R78). -/
theorem runCommands_writeCommands {bs : List Byte} {a : Nat} {s : State} (hne : bs ≠ []) (ha : a + bs.length ≤ 16)
    (h : Memory.wf s.fbuf) :
    runCommands (writeCommands a bs) s = .next { s with fbuf := writeBytes s.fbuf a bs }.ok := by
  induction bs generalizing a s with
  | nil => exact absurd rfl hne
  | cons b bs ih =>
    rw [List.length_cons] at ha
    rw [writeCommands, runCommands, exec_wrb_ofNat (by omega) b s h]
    cases bs with
    | nil => rfl
    | cons c cs => exact ih (by simp) (by omega) (wf_writeByte h a b)

/-- The commands of LDFRAME leave the state that writing its bytes as a frame leaves (30_encoding.md R78). -/
theorem runCommands_expandLdframe {bs : List Byte} {s : State} (hpos : 1 ≤ bs.length) (hle : bs.length ≤ 16)
    (h : Memory.wf s.fbuf) :
    runCommands (writeCommands 0 bs ++ [.setlen (BitVec.ofNat 5 bs.length)]) s =
      .next (s.putFrame bs bs.length).ok := by
  have hlen : (BitVec.ofNat 5 bs.length).toNat ≤ 16 := by
    rw [BitVec.toNat_ofNat]
    omega
  rw [runCommands_append (runCommands_writeCommands (List.ne_nil_of_length_pos hpos) (by omega) h)]
  simp only [runCommands, exec, execSetlen, if_pos hlen]
  rfl

/-! ### Packed and unpacked values as numbers (30_encoding.md R83 to R87) -/

theorem lowByte_toNat (x : Half) : (lowByte x).toNat = x.toNat % 256 := by simp [lowByte]

theorem highByte_toNat (x : Half) : (highByte x).toNat = x.toNat / 256 := by
  have hx : x.toNat < 2 ^ 16 := x.isLt
  simp only [highByte, BitVec.extractLsb'_toNat, Nat.shiftRight_eq_div_pow]
  omega

theorem lowBits_toNat (n : Nat) (x : Half) : (lowBits n x).toNat = x.toNat % 2 ^ n := by simp [lowBits]

/-- Concatenation as a number: the left part counts above the right one's bits. -/
theorem append_toNat {m n : Nat} (x : BitVec m) (y : BitVec n) : (x ++ y).toNat = 2 ^ n * x.toNat + y.toNat := by
  rw [BitVec.toNat_append, ← Nat.shiftLeft_add_eq_or_of_lt y.isLt, Nat.shiftLeft_eq, Nat.mul_comm]

/-- A field of a payload byte, as a number: a byte's bits from `a` on, zero-extended to a register. -/
theorem byteBits_toNat (b : Byte) (a n : Nat) (hn : n ≤ 16) :
    ((b.extractLsb' a n).setWidth 16).toNat = b.toNat / 2 ^ a % 2 ^ n := by
  rw [BitVec.toNat_setWidth_of_le hn, BitVec.extractLsb'_toNat, Nat.shiftRight_eq_div_pow]

theorem byte_setWidth_toNat (b : Byte) : (b.setWidth 16).toNat = b.toNat := BitVec.toNat_setWidth_of_le (by decide)

/-- The byte that four Control fields share, as a number (30_encoding.md R83). -/
theorem controlSharedByte_toNat (f : Vector Half 7) :
    ((0 : BitVec 3) ++ lowBits 1 f[3] ++ lowBits 1 f[4] ++ lowBits 1 f[5] ++ lowBits 2 f[6]).toNat =
      16 * (f[3].toNat % 2) + 8 * (f[4].toNat % 2) + 4 * (f[5].toNat % 2) + f[6].toNat % 4 := by
  simp only [append_toNat, lowBits_toNat, BitVec.ofNat_eq_ofNat, BitVec.toNat_ofNat]
  omega

/-- The Control fields in order, as bits of the payload bytes (30_encoding.md R83). -/
theorem unpack_control_toList (p : Nat → Byte) :
    (unpack .control p).toList =
      [p 1 ++ p 0, p 3 ++ p 2, (p 4).setWidth 16, ((p 6).extractLsb' 4 1).setWidth 16,
       ((p 6).extractLsb' 3 1).setWidth 16, ((p 6).extractLsb' 2 1).setWidth 16,
       ((p 6).extractLsb' 0 2).setWidth 16] := rfl

/-- Control's 11 pad bits: all of payload byte 5 above the top three bits of payload byte 6 (30_encoding.md R83). -/
theorem padBits_control_toNat (p : Nat → Byte) :
    (padBits .control p).toNat = 8 * (p 5).toNat + (p 6).toNat / 32 := by
  have happ : (padBits .control p).toNat = 2 ^ 3 * (p 5).toNat + ((p 6).extractLsb' 5 3).toNat := append_toNat _ _
  have hbyte : (p 6).toNat < 2 ^ 8 := (p 6).isLt
  rw [happ, BitVec.extractLsb'_toNat, Nat.shiftRight_eq_div_pow]
  omega

/-- Field `k` of a Diag frame is payload byte `k` (30_encoding.md R85). -/
theorem pack_diagSend_eq_map (f : Vector Half 8) : pack .diagSend f = f.toList.map lowByte := by
  refine List.ext_getElem (by rw [List.length_map, Vector.length_toList]; rfl) fun k hk _ => ?_
  have hk8 : k < 8 := hk
  simp only [List.getElem_map, Vector.getElem_toList]
  interval_cases k <;> rfl

/-- Payload byte `k` of a Diag frame is field `k` (30_encoding.md R85). -/
theorem unpack_diagSend_toList (p : Nat → Byte) :
    (unpack .diagSend p).toList = (List.range 8).map fun k => (p k).setWidth 16 := rfl

/-! ### The obligations on commands and payloads -/

/-- Settles O17: SETF's field is set, not legal, and of a kind that GETF zero-extends; so ENC has an error to report. -/
theorem illegalValueIsStoredAndRefusedByEnc : Obligations.IllegalValueIsStoredAndRefusedByEnc := by
  unfold Obligations.IllegalValueIsStoredAndRefusedByEnc
  intro t k x s h hx
  obtain ⟨s1, hsetf, hstored⟩ := execSetf_stores t k x s h
  have hrefused : legal (kinds t)[k.toNat] (s1.frame t)[k.toNat].fv = false := by
    rw [hstored]
    exact hx
  obtain ⟨e, henc, hcode⟩ := execEnc_of_not_legal h hrefused
  exact ⟨s1, _, _, hsetf, execGetf_of_set h hstored, extendField_toNat_of_not_legal hx, rfl, henc, hcode⟩

/-- Settles O39: LDFRAME's commands leave what `putFrame` of the bytes leaves, and the laws of a multi-byte write say
what that is. -/
theorem ldframeLoadsBytes : Obligations.LdframeLoadsBytes := by
  unfold Obligations.LdframeLoadsBytes
  intro bs s hpos hle hwf
  refine ⟨_, _, if_pos ⟨hpos, hle⟩, runCommands_expandLdframe hpos hle hwf, ?_, ?_, ?_, ?_, ⟨rfl, rfl⟩,
    ⟨rfl, rfl, rfl⟩, ⟨rfl, rfl⟩⟩
  · intro i hi
    have hread := readByte_writeBytes_inside s.fbuf 0 i bs hi fun j hj => (mem_addresses_of_wf hwf _).mpr (by omega)
    simpa [List.getElem?_eq_getElem hi] using hread
  · intro a ha
    exact readByte_writeBytes_outside _ _ _ _ ha
  · exact Nat.mod_eq_of_lt (by omega)
  · intro t
    simp

/-- Settles O22, byte by byte; the shared byte and the pad bits by their own lemmas. -/
theorem controlPayloadLayout : Obligations.ControlPayloadLayout := by
  unfold Obligations.ControlPayloadLayout
  refine ⟨fun f => ?_, fun p => ⟨?_, padBits_control_toNat p⟩⟩
  · simp only [pack, packControl, List.map_cons, List.map_nil, lowByte_toNat, highByte_toNat]
    rw [← controlSharedByte_toNat]
    rfl
  · simp only [unpack_control_toList, List.map_cons, List.map_nil, append_toNat, byte_setWidth_toNat,
      byteBits_toNat _ _ 1 (by decide), byteBits_toNat _ _ 2 (by decide)]
    simp

/-- Settles O24: both directions are one map over the eight fields. -/
theorem diagPayloadLayout : Obligations.DiagPayloadLayout := by
  unfold Obligations.DiagPayloadLayout
  refine ⟨fun f => ⟨?_, rfl⟩, fun p => ⟨?_, rfl, rfl, rfl⟩⟩
  · rw [pack_diagSend_eq_map, List.map_map]
    exact List.map_congr_left fun x _ => lowByte_toNat x
  · rw [unpack_diagSend_toList, List.map_map]
    exact List.map_congr_left fun k _ => byte_setWidth_toNat (p k)

end Sys2Proof.Machine
end

section
/-! ## Family 40_codec: ENC, DEC and HDR, the two round trips, and the integer conversions -/

namespace Sys2Proof.Machine

open Sys2Proof.Config

/-! ### Low bits and bytes of a register (40_codec.md R115) -/

/-- The high byte above the low byte is the register. -/
theorem highByte_append_lowByte (x : Half) : highByte x ++ lowByte x = x := by
  have hx : x.toNat < 2 ^ 16 := x.isLt
  refine BitVec.eq_of_toNat_eq ?_
  rw [append_toNat, highByte_toNat, lowByte_toNat]
  omega

/-- A register below `2 ^ n` is the zero-extension of its low `n` bits. -/
theorem lowBits_setWidth_of_lt {n : Nat} {x : Half} (hn : n ≤ 16) (h : x.toNat < 2 ^ n) :
    (lowBits n x).setWidth 16 = x := by
  refine BitVec.eq_of_toNat_eq ?_
  rw [BitVec.toNat_setWidth_of_le hn, lowBits_toNat, Nat.mod_eq_of_lt h]

/-- Every legal value fits the packed width of its kind (10_state.md R22, R23). -/
theorem toNat_lt_of_legal {kind : FieldKind} {x : Half} (h : legal kind x = true) : x.toNat < 2 ^ kind.width := by
  cases kind with
  | s16 => exact x.isLt
  | u8 | b1 | dir | hvc =>
    simp only [legal, decide_eq_true_eq] at h
    simp only [FieldKind.width]
    omega

/-- A legal value is the zero-extension of the bits that its packed field holds. -/
theorem lowBits_setWidth_of_legal {kind : FieldKind} {x : Half} (h : legal kind x = true) :
    (lowBits kind.width x).setWidth 16 = x :=
  lowBits_setWidth_of_lt (by cases kind <;> decide) (toNat_lt_of_legal h)

/-- Every value of a kind that is no enumeration is legal where it fits the packed width (10_state.md R23). -/
theorem legal_of_toNat_lt {kind : FieldKind} {x : Half} (hk : kind.isEnum = false) (h : x.toNat < 2 ^ kind.width) :
    legal kind x = true := by
  cases kind with
  | s16 => rfl
  | u8 | b1 =>
    simp only [FieldKind.width] at h
    simp only [legal, decide_eq_true_eq]
    omega
  | dir | hvc => cases hk

/-- The signed value of a register, by its bit 15 (00_scope.md R8). -/
theorem fieldValue_s16_eq (x : Half) :
    fieldValue .s16 x = (x.toNat : Int) - 65536 * ((x.getLsbD 15).toNat : Int) := by
  have hmsb : x.getLsbD 15 = x.msb := by simp [BitVec.msb_eq_getLsbD_last]
  simp only [fieldValue, BitVec.toInt_eq_msb_cond, hmsb]
  cases x.msb <;> simp

/-- The register of a signed value holds its residue modulo 65536. -/
theorem ofInt_toNat (v : Int) : ((BitVec.ofInt 16 v).toNat : Int) = v % 65536 := by
  rw [BitVec.toNat_ofInt]
  omega

/-- The register of a signed value in range stands for that value. -/
theorem fieldValue_s16_ofInt {v : Int} (hlow : -32768 ≤ v) (hhigh : v ≤ 32767) :
    fieldValue .s16 (BitVec.ofInt 16 v) = v :=
  BitVec.toInt_ofInt_eq_self (by decide) hlow (by omega)

/-- Kinds other than s16 stand for their unsigned value (00_scope.md R8). -/
theorem fieldValue_eq_toNat {kind : FieldKind} (hk : kind ≠ .s16) (x : Half) : fieldValue kind x = x.toNat := by
  cases kind with
  | s16 => exact absurd rfl hk
  | u8 | b1 | dir | hvc => rfl

/-! ### Packing and unpacking (30_encoding.md R83 to R88)

The byte that several fields share is a concatenation of few bits, so that its laws are checked by evaluation. -/

/-- The fields that share Control's payload byte 6 can be read back, below three zero bits (30_encoding.md R83). -/
theorem controlShared_fields : ∀ (a b c : BitVec 1) (d : BitVec 2),
    let x : Byte := (0 : BitVec 3) ++ a ++ b ++ c ++ d
    x.extractLsb' 4 1 = a ∧ x.extractLsb' 3 1 = b ∧ x.extractLsb' 2 1 = c ∧ x.extractLsb' 0 2 = d ∧
      x.extractLsb' 5 3 = 0 := by decide

/-- The fields that share Status's payload byte 2 can be read back, below two zero bits (30_encoding.md R84). -/
theorem statusShared_fields : ∀ (a b c d : BitVec 1) (e : BitVec 2),
    let x : Byte := (0 : BitVec 2) ++ a ++ b ++ c ++ d ++ e
    x.extractLsb' 5 1 = a ∧ x.extractLsb' 4 1 = b ∧ x.extractLsb' 3 1 = c ∧ x.extractLsb' 2 1 = d ∧
      x.extractLsb' 0 2 = e ∧ x.extractLsb' 6 2 = 0 := by decide

/-- Unpacking reads the payload bytes of the type and no other (30_encoding.md R83 to R86). -/
theorem unpack_congr {t : FrameType} {p q : Nat → Byte} (h : ∀ j, j < payloadLength t → p j = q j) :
    unpack t p = unpack t q := by
  cases t with
  | control => simp (disch := decide) only [unpack, unpackControl, h]; rfl
  | status => simp (disch := decide) only [unpack, unpackStatus, h]; rfl
  | diagSend | diagRec => simp (disch := decide) only [unpack, unpackDiag, h]; rfl

/-- The pad bits lie in the payload bytes of the type (30_encoding.md R83 to R86). -/
theorem padBits_congr {t : FrameType} {p q : Nat → Byte} (h : ∀ j, j < payloadLength t → p j = q j) :
    padBits t p = padBits t q := by
  cases t with
  | control | status => simp (disch := decide) only [padBits, h]; rfl
  | diagSend | diagRec => rfl

/-- Unpacking the packed fields gives them back, where they are legal (30_encoding.md R87). -/
theorem unpack_pack {t : FrameType} {f : Vector Half t.fieldCount}
    (h : ∀ k : Fin t.fieldCount, legal (kinds t)[k] f[k] = true) : unpack t (fun j => (pack t f).getD j 0) = f := by
  refine Vector.ext fun k hk => ?_
  have hfit := lowBits_setWidth_of_legal (h ⟨k, hk⟩)
  cases t with
  | control =>
    obtain ⟨h3, h4, h5, h6, -⟩ :=
      controlShared_fields (lowBits 1 f[3]) (lowBits 1 f[4]) (lowBits 1 f[5]) (lowBits 2 f[6])
    change k < 7 at hk
    interval_cases k
    · exact highByte_append_lowByte f[0]
    · exact highByte_append_lowByte f[1]
    · exact hfit
    · exact (congrArg (BitVec.setWidth 16) h3).trans hfit
    · exact (congrArg (BitVec.setWidth 16) h4).trans hfit
    · exact (congrArg (BitVec.setWidth 16) h5).trans hfit
    · exact (congrArg (BitVec.setWidth 16) h6).trans hfit
  | status =>
    obtain ⟨h1, h2, h3, h4, h5, -⟩ :=
      statusShared_fields (lowBits 1 f[1]) (lowBits 1 f[2]) (lowBits 1 f[3]) (lowBits 1 f[4]) (lowBits 2 f[5])
    change k < 9 at hk
    interval_cases k
    · exact highByte_append_lowByte f[0]
    · exact (congrArg (BitVec.setWidth 16) h1).trans hfit
    · exact (congrArg (BitVec.setWidth 16) h2).trans hfit
    · exact (congrArg (BitVec.setWidth 16) h3).trans hfit
    · exact (congrArg (BitVec.setWidth 16) h4).trans hfit
    · exact (congrArg (BitVec.setWidth 16) h5).trans hfit
    · exact hfit
    · exact hfit
    · exact hfit
  | diagSend | diagRec =>
    change k < 8 at hk
    interval_cases k <;> exact hfit

/-- Packing leaves every pad bit 0, whatever the fields hold (30_encoding.md R88). -/
theorem padBits_pack (t : FrameType) (f : Vector Half t.fieldCount) :
    padBits t (fun j => (pack t f).getD j 0) = 0 := by
  cases t with
  | control =>
    obtain ⟨-, -, -, -, hpad⟩ :=
      controlShared_fields (lowBits 1 f[3]) (lowBits 1 f[4]) (lowBits 1 f[5]) (lowBits 2 f[6])
    exact congrArg (fun x => (0 : Byte) ++ x) hpad
  | status =>
    obtain ⟨-, -, -, -, -, hpad⟩ :=
      statusShared_fields (lowBits 1 f[1]) (lowBits 1 f[2]) (lowBits 1 f[3]) (lowBits 1 f[4]) (lowBits 2 f[5])
    exact hpad
  | diagSend | diagRec => rfl

theorem lowByte_append (a b : Byte) : lowByte (a ++ b) = b := by
  refine BitVec.eq_of_toNat_eq ?_
  have hb := b.isLt
  rw [lowByte_toNat, append_toNat]
  omega

theorem highByte_append (a b : Byte) : highByte (a ++ b) = a := by
  refine BitVec.eq_of_toNat_eq ?_
  have hb := b.isLt
  rw [highByte_toNat, append_toNat]
  omega

/-- The low bits of a zero-extension are what was extended. -/
theorem lowBits_setWidth {n : Nat} (hn : n ≤ 16) (x : BitVec n) : lowBits n (x.setWidth 16) = x := by
  refine BitVec.eq_of_toNat_eq ?_
  rw [lowBits_toNat, BitVec.toNat_setWidth_of_le hn, Nat.mod_eq_of_lt x.isLt]

theorem lowByte_setWidth (b : Byte) : lowByte (b.setWidth 16) = b := lowBits_setWidth (by decide) b

/-- Packing the fields of Control's shared byte gives it back without its three pad bits. -/
theorem controlShared_rebuilt : ∀ b : Byte,
    (0 : BitVec 3) ++ b.extractLsb' 4 1 ++ b.extractLsb' 3 1 ++ b.extractLsb' 2 1 ++ b.extractLsb' 0 2 = b &&& 0x1F := by
  decide

/-- Packing the fields of Status's shared byte gives it back without its two pad bits. -/
theorem statusShared_rebuilt : ∀ b : Byte,
    (0 : BitVec 2) ++ b.extractLsb' 5 1 ++ b.extractLsb' 4 1 ++ b.extractLsb' 3 1 ++ b.extractLsb' 2 1 ++
      b.extractLsb' 0 2 = b &&& 0x3F := by
  decide

theorem and_allBits (b : Byte) : b &&& 255#8 = b := BitVec.and_allOnes

/-- Packing what was unpacked gives the payload back with its pad bits cleared (30_encoding.md R87, R88). -/
theorem pack_unpack (t : FrameType) (p : Nat → Byte) :
    pack t (unpack t p) = (List.range (payloadLength t)).map fun j => p j &&& keptBits t (3 + j) := by
  cases t with
  | control =>
    simpa [pack, packControl, unpack, unpackControl, lowByte_append, highByte_append, lowByte_setWidth, lowBits_setWidth,
      payloadLength, List.range_succ, keptBits, and_allBits] using controlShared_rebuilt (p 6)
  | status =>
    simpa [pack, packStatus, unpack, unpackStatus, lowByte_append, highByte_append, lowByte_setWidth, lowBits_setWidth,
      payloadLength, List.range_succ, keptBits, and_allBits] using statusShared_rebuilt (p 2)
  | diagSend | diagRec =>
    simp [pack, packDiag, unpack, unpackDiag, lowByte_setWidth, payloadLength, List.range_succ, keptBits, and_allBits]

/-! ### ENC and DEC as dispatched -/

theorem exec_enc (t : FrameType) (s : State) : exec (.enc t) s = execEnc t s := rfl
theorem exec_dec (t : FrameType) (s : State) : exec (.dec t) s = execDec t s := rfl

/-! ### Writing a frame -/

/-- A frame that fits the buffer reads back byte by byte. -/
theorem readByte_putFrame {s : State} {bs : List Byte} {n i : Nat} (hwf : Memory.wf s.fbuf) (hfit : bs.length ≤ 16)
    (hi : i < bs.length) : readByte (s.putFrame bs n).ok.fbuf i = bs[i]? := by
  have hread := readByte_writeBytes_inside s.fbuf 0 i bs hi fun j hj => (mem_addresses_of_wf hwf _).mpr (by omega)
  simpa [List.getElem?_eq_getElem hi] using hread

/-- Completing after writing a frame changes the frame's bytes, FLEN, ERR and ERRF alone. -/
theorem putFrame_ok_frame (s : State) (bs : List Byte) (n : Nat) :
    SameBufferBut 0 bs.length s (s.putFrame bs n).ok ∧ SameFields s (s.putFrame bs n).ok ∧
      SameResult s (s.putFrame bs n).ok ∧ SameModel s (s.putFrame bs n).ok ∧ NoError (s.putFrame bs n).ok :=
  ⟨fun _ ha => readByte_writeBytes_outside _ _ _ _ ha, fun _ => by simp, ⟨rfl, rfl⟩, ⟨rfl, rfl, rfl⟩, ⟨rfl, rfl⟩⟩

/-! ### ENC (40_codec.md R110) -/

/-- A frame's first three bytes are its type's header. -/
theorem frameBytes_header (t : FrameType) (fs : Vector FieldReg t.fieldCount) (i : Fin 3) :
    (frameBytes t fs)[i.val]? = some (header t)[i] := by
  rw [frameBytes, List.getElem?_append_left (by simp), List.getElem?_eq_getElem (by simp)]
  simp

/-- A frame's bytes from 3 on are the packed payload. -/
theorem frameBytes_payload (t : FrameType) (fs : Vector FieldReg t.fieldCount) (p : Nat) :
    (frameBytes t fs)[3 + p]? = (pack t (fieldValues fs))[p]? := by
  rw [frameBytes, List.getElem?_append_right (by simp)]
  simp

theorem fieldError_of_unset {kind : FieldKind} {r : FieldReg} {k : Nat} (h : r.v = false) :
    fieldError kind r k = some (.encUnset k) := if_pos h

theorem fieldError_of_not_legal {kind : FieldKind} {r : FieldReg} {k : Nat} (hset : r.v = true)
    (h : legal kind r.fv = false) : fieldError kind r k = some (.encRange k) := by
  simp [fieldError, hset, h]

/-- What ENC leaves where every field is set and legal (40_codec.md R110). -/
def State.encoded (s : State) (t : FrameType) : State :=
  (s.putFrame (frameBytes t (s.frame t)) (frameLength t)).ok

theorem exec_enc_of_allLegal {t : FrameType} {s : State} (hwf : Memory.wf s.fbuf) (h : AllLegal t s) :
    exec (.enc t) s = .next (s.encoded t) := by
  rw [exec_enc, execEnc_of_wf t s hwf, (encodeError_eq_none_iff t s).mpr h]
  rfl

theorem exec_enc_of_error {t : FrameType} {s : State} {e : CmdError} (h : encodeError t (s.frame t) = some e) :
    exec (.enc t) s = .next (s.raise e) := by
  simp only [exec_enc, execEnc, h]

theorem readByte_encoded {s : State} {t : FrameType} {i : Nat} (hwf : Memory.wf s.fbuf) (hi : i < frameLength t) :
    readByte (s.encoded t).fbuf i = (frameBytes t (s.frame t))[i]? := by
  have hle := frameLength_le t
  exact readByte_putFrame hwf (by rw [frameBytes_length]; omega) (by rw [frameBytes_length]; exact hi)

theorem readByte_encoded_header {s : State} {t : FrameType} (hwf : Memory.wf s.fbuf) (i : Fin 3) :
    readByte (s.encoded t).fbuf i = some (header t)[i] := by
  have hlt := lt_frameLength t
  rw [readByte_encoded hwf (by omega), frameBytes_header]

theorem readByte_encoded_payload {s : State} {t : FrameType} {p : Nat} (hwf : Memory.wf s.fbuf)
    (hp : p < payloadLength t) :
    readByte (s.encoded t).fbuf (3 + p) = (pack t (fieldValues (s.frame t)))[p]? := by
  rw [readByte_encoded hwf (Nat.add_lt_add_left hp 3), frameBytes_payload]

@[simp] theorem State.encoded_flen (s : State) (t : FrameType) : (s.encoded t).flen.toNat = frameLength t :=
  toNat_frameLength t

/-- Completing ENC changes the frame's bytes, FLEN, ERR and ERRF alone. -/
theorem encoded_frame (s : State) (t : FrameType) :
    SameBufferBut 0 (frameLength t) s (s.encoded t) ∧ SameFields s (s.encoded t) ∧ SameResult s (s.encoded t) ∧
      SameModel s (s.encoded t) ∧ NoError (s.encoded t) := by
  have hframe := putFrame_ok_frame s (frameBytes t (s.frame t)) (frameLength t)
  rwa [frameBytes_length] at hframe

/-- What ENC does where every field before `k` passes and field `k` does not (60_exceptions.md R184). -/
theorem exec_enc_first {t : FrameType} {s : State} {k : Fin t.fieldCount} {e : CmdError}
    (hb : ∀ j : Fin t.fieldCount, j < k → (s.frame t)[j].v = true ∧ legal (kinds t)[j] (s.frame t)[j].fv = true)
    (hk : fieldError (kinds t)[k] (s.frame t)[k] k = some e) : exec (.enc t) s = .next (s.raise e) :=
  exec_enc_of_error (encodeError_first t s k e hb hk)

/-- ENC answers a next state in every state whose buffer is in canonical form. -/
theorem exec_enc_completes (t : FrameType) {s : State} (hwf : Memory.wf s.fbuf) :
    ∃ s' : State, exec (.enc t) s = .next s' := by
  cases he : encodeError t (s.frame t) with
  | none => exact ⟨_, exec_enc_of_allLegal hwf ((encodeError_eq_none_iff t s).mp he)⟩
  | some e => exact ⟨_, exec_enc_of_error he⟩

/-! ### DEC's checks (40_codec.md R111) -/

/-- Under `ALL` the first differing header byte is reported. -/
theorem headerError_all_first {t : FrameType} {b : Nat → Byte} {i : Fin 3}
    (hb : ∀ j : Fin 3, j < i → b j = (header t)[j]) (hi : b i ≠ (header t)[i]) :
    headerError .all t b = some (.decHeader i) := by
  unfold headerError
  refine findSome_finRange_first _ i (CmdError.decHeader i) (fun j hj => ?_) ?_
  · exact if_pos (hb j hj)
  · exact if_neg hi

/-- Under `REJECT` the first enumerated field that holds no member is reported. -/
theorem enumError_reject_first {t : FrameType} {u : Vector Half t.fieldCount} {k : Fin t.fieldCount}
    (hb : ∀ j : Fin t.fieldCount, j < k → (kinds t)[j].isEnum = true → legal (kinds t)[j] u[j] = true)
    (hk : (kinds t)[k].isEnum = true) (hv : legal (kinds t)[k] u[k] = false) :
    enumError .reject t u = some (.decValue k) := by
  refine findSome_finRange_first _ k (CmdError.decValue k) (fun j hj => if_neg ?_) (if_pos ?_)
  · have hmember := hb j hj
    rw [Bool.and_eq_true, Bool.not_eq_true']
    exact fun hbad => absurd ((hmember hbad.1).symm.trans hbad.2) (by decide)
  · rw [hk, hv]
    rfl

/-- A wrong length is DEC's first error. -/
theorem decodeAnswer_of_length {s : State} {t : FrameType} (h : s.flen.toNat ≠ frameLength t) :
    decodeAnswer s t = .error .decLength := if_neg h

/-- After the length, DEC reports a header byte. -/
theorem decodeAnswer_of_headerError {s : State} {t : FrameType} {e : CmdError} (hl : s.flen.toNat = frameLength t)
    (h : headerError s.policy.header t (byteAt s.fbuf) = some e) : decodeAnswer s t = .error e := by
  rw [decodeAnswer, if_pos hl, decodeFrame, h]

/-- After the header, DEC reports an enumerated field. -/
theorem decodeAnswer_of_enumError {s : State} {t : FrameType} {e : CmdError} (ha : HeaderAccepted t s)
    (h : enumError s.policy.enums t (unpack t (payloadOf s)) = some e) : decodeAnswer s t = .error e := by
  obtain ⟨hl, hheader⟩ := ha
  unfold payloadOf at h
  rw [decodeAnswer, if_pos hl, decodeFrame, (headerError_eq_none_iff _ _ _).mpr hheader, h]

/-- After the enumerations, DEC reports the pad bits. -/
theorem decodeAnswer_of_padError {s : State} {t : FrameType} {e : CmdError} (ha : HeaderAccepted t s)
    (he : EnumsAccepted t s) (h : padError s.policy.pads t (payloadOf s) = some e) : decodeAnswer s t = .error e := by
  obtain ⟨hl, hheader⟩ := ha
  have henum := (enumError_eq_none_iff _ _ _).mpr he
  unfold payloadOf at h henum
  rw [decodeAnswer, if_pos hl, decodeFrame, (headerError_eq_none_iff _ _ _).mpr hheader, henum, h]

/-- What DEC leaves on an answer of its checks: the error raised, or the type populated (40_codec.md R111). -/
def State.decoded (s : State) (t : FrameType) : Except CmdError (Vector Half t.fieldCount) → State
  | .error e => s.raise e
  | .ok u => (s.populate t u).ok

theorem exec_dec_eq (t : FrameType) (s : State) :
    exec (.dec t) s = s.decodeCheck t fun r => .next (s.decoded t r) := by
  rw [exec_dec, execDec]
  congr 1
  funext r
  cases r <;> rfl

/-- With the buffer in canonical form DEC commits its checks' answer. -/
theorem exec_dec_of_wf (t : FrameType) {s : State} (hwf : Memory.wf s.fbuf) :
    exec (.dec t) s = .next (s.decoded t (decodeAnswer s t)) := by
  rw [exec_dec_eq, decodeCheck_of_wf s t _ hwf]

/-- Where DEC answers a next state, it has committed its checks' answer. -/
theorem eq_decoded_of_exec_dec {t : FrameType} {s d : State} (h : exec (.dec t) s = .next d) :
    d = s.decoded t (decodeAnswer s t) := by
  rw [exec_dec_eq] at h
  exact (Host.Outcome.next.inj (decodeCheck_next h)).symm

/-- Completing DEC writes the fields of the type, ERR and ERRF alone. -/
theorem populate_ok_frame (s : State) (t : FrameType) (u : Vector Half t.fieldCount) :
    SameFieldsBut t s (s.populate t u).ok ∧ SameBuffer s (s.populate t u).ok ∧ (s.populate t u).ok.flen = s.flen ∧
      SameResult s (s.populate t u).ok ∧ SameModel s (s.populate t u).ok ∧ NoError (s.populate t u).ok :=
  ⟨fun x hx => by rw [State.ok_frame, State.populate_frame_ne s t x u hx], fun _ => by simp, by simp,
    ⟨by simp, by simp⟩, ⟨by simp, by simp, by simp⟩, ⟨rfl, rfl⟩⟩

/-! ### DEC twice -/

@[simp] theorem State.decoded_fbuf (s : State) (t : FrameType) (r : Except CmdError (Vector Half t.fieldCount)) :
    (s.decoded t r).fbuf = s.fbuf := by cases r <;> simp [State.decoded]
@[simp] theorem State.decoded_flen (s : State) (t : FrameType) (r : Except CmdError (Vector Half t.fieldCount)) :
    (s.decoded t r).flen = s.flen := by cases r <;> simp [State.decoded]
@[simp] theorem State.decoded_policy (s : State) (t : FrameType) (r : Except CmdError (Vector Half t.fieldCount)) :
    (s.decoded t r).policy = s.policy := by cases r <;> simp [State.decoded]

/-- Committing an answer a second time changes nothing. -/
theorem State.decoded_decoded (s : State) (t : FrameType) (r : Except CmdError (Vector Half t.fieldCount)) :
    (s.decoded t r).decoded t r = s.decoded t r := by
  cases r with
  | error e => rfl
  | ok u => cases t <;> rfl

/-- DEC's checks read FBUF, FLEN and the policy alone (40_codec.md R111). -/
theorem decodeCheck_congr {s s' : State} (t : FrameType)
    (commit : Except CmdError (Vector Half t.fieldCount) → Host.Outcome State Fault Refusal) (hb : s.fbuf = s'.fbuf)
    (hl : s.flen = s'.flen) (hp : s.policy = s'.policy) : s.decodeCheck t commit = s'.decodeCheck t commit := by
  simp only [State.decodeCheck, State.onRange, hb, hl, hp]

/-- Where the check has led to a next state once, it hands its answer to any other command as well. -/
theorem decodeCheck_of_next {s s' : State} {t : FrameType}
    {commit : Except CmdError (Vector Half t.fieldCount) → Host.Outcome State Fault Refusal}
    (h : s.decodeCheck t commit = .next s')
    (commit' : Except CmdError (Vector Half t.fieldCount) → Host.Outcome State Fault Refusal) :
    s.decodeCheck t commit' = commit' (decodeAnswer s t) := by
  unfold State.decodeCheck at h
  unfold State.decodeCheck decodeAnswer
  split
  next hl =>
    rw [if_pos hl] at h
    obtain ⟨-, hlisted⟩ := State.onRange_next h
    simp only [State.onRange, (firstAbsent_eq_none_iff _ _ _).mpr hlisted]
  next => rfl

/-! ### What DEC reads -/

/-- Step 2 of DEC reads the three header bytes alone. -/
theorem headerError_congr (c : HeaderCheck) (t : FrameType) {b b' : Nat → Byte} (h : ∀ i, i < 3 → b i = b' i) :
    headerError c t b = headerError c t b' := by
  cases c with
  | all =>
    have hbyte := fun i : Fin 3 => h i i.isLt
    simp only [headerError, hbyte]
  | lengthOnly => simp only [headerError, h 2 (by decide)]

/-- Steps 2 to 4 of DEC read the bytes of the frame alone (40_codec.md R111). -/
theorem decodeFrame_congr (policy : Policy) (t : FrameType) {b b' : Nat → Byte}
    (h : ∀ a, a < frameLength t → b a = b' a) : decodeFrame policy t b = decodeFrame policy t b' := by
  have hlt := lt_frameLength t
  have hpayload : ∀ j, j < payloadLength t → b (3 + j) = b' (3 + j) := fun j hj => h _ (Nat.add_lt_add_left hj 3)
  have hunpack := unpack_congr hpayload
  have hpads := padBits_congr hpayload
  simp only [decodeFrame, padError, headerError_congr _ t fun i hi => h i (by omega), hunpack, hpads]

/-- The answer of DEC's checks depends on FLEN, the policy and the bytes of the frame alone. -/
theorem decodeAnswer_congr {s s' : State} {t : FrameType} (hl : s.flen = s'.flen) (hp : s.policy = s'.policy)
    (hb : ∀ a, a < frameLength t → readByte s.fbuf a = readByte s'.fbuf a) : decodeAnswer s t = decodeAnswer s' t := by
  have hbytes : ∀ a, a < frameLength t → byteAt s.fbuf a = byteAt s'.fbuf a := fun a ha => by
    rw [byteAt, byteAt, hb a ha]
  rw [decodeAnswer, decodeAnswer, hl, hp, decodeFrame_congr _ t hbytes]

/-- An error's code is never 0, the code of no error (60_exceptions.md R181). -/
theorem CmdError.code_ne_zero (e : CmdError) : e.code ≠ 0 := by cases e <;> simp [CmdError.code]

/-! ### HDR, WRB, DEC -/

/-- With a wrong length DEC reports it and does not access FBUF (20_memory.md R51). -/
theorem exec_dec_of_length {t : FrameType} {s : State} (h : s.flen.toNat ≠ frameLength t) :
    exec (.dec t) s = .next (s.raise .decLength) := by
  rw [exec_dec_eq, State.decodeCheck, if_neg h]
  rfl

/-- WRB commands complete and leave FLEN alone (42_buffer.md R160). -/
theorem runCommands_wrb_keeps_flen (writes : List (BitVec 4 × Byte)) {s : State} (hwf : Memory.wf s.fbuf) :
    ∃ s' : State, runCommands (writes.map fun p => .wrb p.1 p.2) s = .next s' ∧ s'.flen = s.flen := by
  induction writes generalizing s with
  | nil => exact ⟨s, rfl, rfl⟩
  | cons p writes ih =>
    have hwrb : exec (.wrb p.1 p.2) s = _ := execWrb_of_wf p.1 p.2 s hwf
    obtain ⟨s', hrun, hlen⟩ := ih (exec_keeps_wf hwrb hwf)
    refine ⟨s', ?_, hlen⟩
    rw [List.map_cons, runCommands, hwrb]
    exact hrun

/-! ### ENC then DEC -/

theorem payloadOf_encoded {s : State} {t : FrameType} (hwf : Memory.wf s.fbuf) {p : Nat} (hp : p < payloadLength t) :
    payloadOf (s.encoded t) p = (pack t (fieldValues (s.frame t))).getD p 0 := by
  rw [payloadOf, byteAt, readByte_encoded_payload hwf hp, List.getD_eq_getElem?_getD]

/-- DEC's checks pass on what ENC has written, under every policy, and answer the fields (40_codec.md R113). -/
theorem decodeAnswer_encoded {s : State} {t : FrameType} (hwf : Memory.wf s.fbuf) (h : AllLegal t s) :
    decodeAnswer (s.encoded t) t = .ok (fieldValues (s.frame t)) := by
  have hlegal : ∀ k : Fin t.fieldCount, legal (kinds t)[k] (fieldValues (s.frame t))[k] = true := fun k => by
    simpa using (h k).2
  have hheader : ∀ i : Fin 3, byteAt (s.encoded t).fbuf i = (header t)[i] := fun i => by
    rw [byteAt, readByte_encoded_header hwf i, Option.getD_some]
  have hunpack : unpack t (payloadOf (s.encoded t)) = fieldValues (s.frame t) :=
    (unpack_congr fun _ hp => payloadOf_encoded hwf hp).trans (unpack_pack hlegal)
  have hpads : padBits t (payloadOf (s.encoded t)) = 0 :=
    (padBits_congr fun _ hp => payloadOf_encoded hwf hp).trans (padBits_pack t _)
  refine (decodeAnswer_eq_ok_iff _ _ _).mpr ⟨⟨⟨s.encoded_flen t, fun _ => hheader, fun _ => hheader 2⟩, ?_, ?_⟩, ?_⟩
  · intro _ k _
    rw [hunpack]
    exact hlegal k
  · exact fun _ => hpads
  · exact hunpack.symm

/-- Populating a type with the values it holds leaves its register set, where every field is set. -/
theorem populate_fieldValues_frame {s s' : State} {t : FrameType} (h : ∀ k : Fin t.fieldCount, (s.frame t)[k].v = true) :
    (s'.populate t (fieldValues (s.frame t))).frame t = s.frame t := by
  rw [State.populate_frame_self]
  refine Vector.ext fun k hk => ?_
  have hset : (s.frame t)[k].v = true := h ⟨k, hk⟩
  simp [← hset]

/-! ### DEC then ENC -/

theorem setWidth_toNat_lt {n : Nat} (hn : n ≤ 16) (x : BitVec n) : (x.setWidth 16).toNat < 2 ^ n := by
  rw [BitVec.toNat_setWidth_of_le hn]
  exact x.isLt

/-- Every unpacked value fits the packed width of its field (30_encoding.md R87). -/
theorem unpack_toNat_lt (t : FrameType) (p : Nat → Byte) (k : Fin t.fieldCount) :
    (unpack t p)[k].toNat < 2 ^ (kinds t)[k].width := by
  obtain ⟨k, hk⟩ := k
  cases t with
  | control =>
    change k < 7 at hk
    interval_cases k
    · exact BitVec.isLt _
    · exact BitVec.isLt _
    all_goals exact setWidth_toNat_lt (by decide) _
  | status =>
    change k < 9 at hk
    interval_cases k
    · exact BitVec.isLt _
    all_goals exact setWidth_toNat_lt (by decide) _
  | diagSend | diagRec =>
    change k < 8 at hk
    interval_cases k <;> exact setWidth_toNat_lt (by decide) _

/-- DEC without an error has passed its checks and populated the type with the unpacked payload. -/
theorem exec_dec_noError {t : FrameType} {s d : State} (h : exec (.dec t) s = .next d) (he : d.err = 0) :
    (HeaderAccepted t s ∧ EnumsAccepted t s ∧ PadsAccepted t s) ∧ d = (s.populate t (unpack t (payloadOf s))).ok := by
  obtain rfl := eq_decoded_of_exec_dec h
  cases hd : decodeAnswer s t with
  | error e =>
    rw [hd] at he
    exact absurd he e.code_ne_zero
  | ok u =>
    obtain ⟨haccepted, rfl⟩ := (decodeAnswer_eq_ok_iff s t u).mp hd
    exact ⟨haccepted, rfl⟩

/-- Under `REJECT` DEC accepts legal values only: an enumeration by its check, every other kind by its packed width. -/
theorem legal_unpack {t : FrameType} {s : State} (hreject : s.policy.enums = .reject) (h : EnumsAccepted t s)
    (k : Fin t.fieldCount) : legal (kinds t)[k] (unpack t (payloadOf s))[k] = true := by
  cases henum : (kinds t)[k].isEnum with
  | true => exact h hreject k henum
  | false => exact legal_of_toNat_lt henum (unpack_toNat_lt t _ k)

theorem fieldValues_populate (s : State) (t : FrameType) (u : Vector Half t.fieldCount) :
    fieldValues ((s.populate t u).ok.frame t) = u := by
  refine Vector.ext fun k hk => ?_
  simp

/-- The header has no pad bits. -/
theorem and_keptBits_header (t : FrameType) {i : Nat} (hi : i < 3) (b : Byte) : b &&& keptBits t i = b := by
  have hkept : keptBits t i = 0xFF := by
    cases t with
    | control => rw [keptBits, if_neg (by omega), if_neg (by omega)]
    | status => rw [keptBits, if_neg (by omega)]
    | diagSend | diagRec => rfl
  rw [hkept]
  exact and_allBits b

/-- Where the pad bits are 0, clearing them changes no payload byte. -/
theorem and_keptBits_payload {t : FrameType} {p : Nat → Byte} (h : padBits t p = 0) (j : Nat) :
    p j &&& keptBits t (3 + j) = p j := by
  cases t with
  | control =>
    have hclear : ∀ b : Byte, b.toNat / 32 = 0 → b &&& 0x1F = b := by decide
    have hpads := padBits_control_toNat p
    have hzero : (padBits .control p).toNat = 0 := congrArg BitVec.toNat h
    by_cases h5 : j = 5
    · have hp5 : p 5 = 0 := BitVec.eq_of_toNat_eq (show (p 5).toNat = 0 by omega)
      simp [h5, hp5]
    · by_cases h6 : j = 6
      · subst h6
        exact hclear (p 6) (by omega)
      · rw [keptBits, if_neg (by omega), if_neg (by omega)]
        exact and_allBits (p j)
  | status =>
    have hclear : ∀ b : Byte, b.extractLsb' 6 2 = 0 → b &&& 0x3F = b := by decide
    by_cases h2 : j = 2
    · subst h2
      exact hclear (p 2) h
    · rw [keptBits, if_neg (by omega)]
      exact and_allBits (p j)
  | diagSend | diagRec => exact and_allBits (p j)

/-- Where the pad bits are 0, clearing them changes no byte of the frame. -/
theorem byteAt_and_keptBits {t : FrameType} {s : State} (h : padBits t (payloadOf s) = 0) (a : Nat) :
    byteAt s.fbuf a &&& keptBits t a = byteAt s.fbuf a := by
  by_cases ha : a < 3
  · exact and_keptBits_header t ha _
  · obtain ⟨p, rfl⟩ := Nat.exists_eq_add_of_le (Nat.not_lt.mp ha)
    exact and_keptBits_payload h p

/-- ENC of the fields unpacked from a frame with the type's header writes that frame with its pad bits cleared
(40_codec.md R113). -/
theorem readByte_encoded_of_unpacked {s d : State} {t : FrameType} (hwf : Memory.wf d.fbuf)
    (hheader : ∀ i : Fin 3, byteAt s.fbuf i = (header t)[i])
    (hd : fieldValues (d.frame t) = unpack t (payloadOf s)) {i : Nat} (hi : i < frameLength t) :
    readByte (d.encoded t).fbuf i = some (byteAt s.fbuf i &&& keptBits t i) := by
  by_cases hi3 : i < 3
  · rw [readByte_encoded_header hwf ⟨i, hi3⟩, ← hheader ⟨i, hi3⟩, and_keptBits_header t hi3]
  · obtain ⟨p, rfl⟩ := Nat.exists_eq_add_of_le (Nat.not_lt.mp hi3)
    have hp : p < payloadLength t := Nat.lt_of_add_lt_add_left hi
    rw [readByte_encoded_payload hwf hp, hd, pack_unpack, List.getElem?_map, List.getElem?_range hp]
    rfl

/-! ### The obligations -/

/-- Settles O32, conversion by conversion. -/
theorem integerConversions : Obligations.IntegerConversions := by
  unfold Obligations.IntegerConversions
  exact ⟨fun v hlow hhigh => ⟨ofInt_toNat v, fieldValue_s16_ofInt hlow hhigh⟩,
    fun x => ⟨highByte_append_lowByte x, fieldValue_s16_eq x⟩,
    fun kind x hk hx => ⟨lowBits_setWidth_of_legal hx, fieldValue_eq_toNat hk x⟩⟩

/-- Settles O27, from the laws of writing a frame. -/
theorem hdrWritesTheHeader : Obligations.HdrWritesTheHeader := by
  unfold Obligations.HdrWritesTheHeader
  intro t s hwf
  have hread : ∀ i, i < 3 → readByte (s.putFrame (header t).toList 3).ok.fbuf i = (header t).toList[i]? :=
    fun i hi => readByte_putFrame hwf (by simp) (by simpa using hi)
  obtain ⟨hbuffer, hfields, hresult, hmodel, hok⟩ := putFrame_ok_frame s (header t).toList 3
  exact ⟨_, execHdr_of_wf t s hwf, hread 0 (by decide), hread 1 (by decide), hread 2 (by decide), hbuffer, rfl, hfields,
    hresult, hmodel, hok⟩

/-- Settles O21: `encoded` says what success leaves, and the first failing field decides what is raised. -/
theorem encEncodesOrReportsFirstField : Obligations.EncEncodesOrReportsFirstField := by
  unfold Obligations.EncEncodesOrReportsFirstField
  intro t s hwf
  obtain ⟨s', hs'⟩ := exec_enc_completes t hwf
  have hnext : ∀ u, exec (.enc t) s = .next u → u = s' := fun u hu => Host.Outcome.next.inj (hu.symm.trans hs')
  refine ⟨s', hs', fun hlegal => ?_, fun k hbefore => ⟨fun hunset => ?_, fun hset hrange => ?_⟩⟩
  · obtain rfl := hnext _ (exec_enc_of_allLegal hwf hlegal)
    obtain ⟨hbuffer, hfields, hresult, hmodel, hok⟩ := encoded_frame s t
    exact ⟨readByte_encoded_header hwf 0, readByte_encoded_header hwf 1, readByte_encoded_header hwf 2,
      fun p hp => readByte_encoded_payload hwf hp, hbuffer, s.encoded_flen t, hfields, hresult, hmodel, hok⟩
  · have herr : fieldError (kinds t)[k] (s.frame t)[k] k = some (.encUnset k) := fieldError_of_unset hunset
    obtain rfl := hnext _ (exec_enc_first hbefore herr)
    exact onlyError_raise s _
  · have herr : fieldError (kinds t)[k] (s.frame t)[k] k = some (.encRange k) :=
      fieldError_of_not_legal hset hrange
    obtain rfl := hnext _ (exec_enc_first hbefore herr)
    exact onlyError_raise s _

/-- Settles O26: each clause fixes the answer of DEC's checks, and DEC commits that answer. -/
theorem decDecodesOrReportsFirstError : Obligations.DecDecodesOrReportsFirstError := by
  unfold Obligations.DecDecodesOrReportsFirstError
  intro t s hwf
  have hreport : ∀ e, decodeAnswer s t = .error e → OnlyError e.code e.detail s (s.decoded t (decodeAnswer s t)) :=
    fun e he => he ▸ onlyError_raise s e
  refine ⟨_, exec_dec_of_wf t hwf, fun hl => ?_, fun hl hall i hbefore hi => ?_, fun hl hlen hi => ?_,
    fun ha hreject k hbefore hk hv => ?_, fun ha he hpads hp => ?_, fun ha he hp => ?_⟩
  · exact hreport _ (decodeAnswer_of_length hl)
  · exact hreport (.decHeader i) (decodeAnswer_of_headerError hl (by rw [hall, headerError_all_first hbefore hi]))
  · exact hreport (.decHeader 2) (decodeAnswer_of_headerError hl (by rw [hlen, headerError, if_neg hi]))
  · exact hreport (.decValue k) (decodeAnswer_of_enumError ha (by rw [hreject, enumError_reject_first hbefore hk hv]))
  · exact hreport (.decValue 15) (decodeAnswer_of_padError ha he (by rw [hpads, padError, if_neg hp]))
  · rw [(decodeAnswer_eq_ok_iff s t _).mpr ⟨⟨ha, he, hp⟩, rfl⟩]
    exact ⟨fun k => by simp [State.decoded], populate_ok_frame s t _⟩

/-- Settles O30: DEC changes nothing its checks read, so the second DEC commits the first one's answer again. -/
theorem decIsIdempotent : Obligations.DecIsIdempotent := by
  unfold Obligations.DecIsIdempotent
  intro t s d h
  obtain rfl := eq_decoded_of_exec_dec h
  rw [exec_dec_eq] at h
  rw [exec_dec_eq, decodeCheck_congr t _ (s.decoded_fbuf t _) (s.decoded_flen t _) (s.decoded_policy t _),
    decodeCheck_of_next h, State.decoded_decoded]

/-- Settles O31: the answer of the checks depends on FLEN, the policy and the frame's bytes alone. -/
theorem decReadsOnlyTheFrame : Obligations.DecReadsOnlyTheFrame := by
  unfold Obligations.DecReadsOnlyTheFrame
  intro t s1 s2 d1 d2 hl hp hb h1 h2
  obtain rfl := eq_decoded_of_exec_dec h1
  obtain rfl := eq_decoded_of_exec_dec h2
  rw [decodeAnswer_congr hl hp hb]
  cases decodeAnswer s2 t with
  | error e => exact ⟨rfl, rfl, fun h => absurd h e.code_ne_zero⟩
  | ok u => exact ⟨rfl, rfl, fun _ => by simp [State.decoded]⟩

/-- Settles O44: HDR leaves FLEN 3, WRB keeps it, and no frame is that short. -/
theorem hdrThenDecReportsLength : Obligations.HdrThenDecReportsLength := by
  unfold Obligations.HdrThenDecReportsLength
  intro t u writes s hwf
  have hhdr : exec (.hdr t) s = _ := execHdr_of_wf t s hwf
  obtain ⟨s1, hrun, hlen⟩ := runCommands_wrb_keeps_flen writes (exec_keeps_wf hhdr hwf)
  have hshort : s1.flen.toNat ≠ frameLength u := by
    have hthree : s1.flen.toNat = 3 := by rw [hlen]; rfl
    have := lt_frameLength u
    omega
  refine ⟨s1, _, ?_, exec_dec_of_length hshort, onlyError_raise s1 .decLength⟩
  rw [runCommands, hhdr]
  exact hrun

/-- Settles O28: what ENC wrote passes DEC's checks under every policy, and unpacks to the fields it was packed from. -/
theorem encodeThenDecodeKeepsFields : Obligations.EncodeThenDecodeKeepsFields := by
  unfold Obligations.EncodeThenDecodeKeepsFields
  intro t s hwf h
  have henc := exec_enc_of_allLegal hwf h
  obtain ⟨-, hfields, -, -, hok⟩ := encoded_frame s t
  refine ⟨_, _, henc, exec_dec_of_wf t (exec_keeps_wf henc hwf), hok, ?_⟩
  rw [decodeAnswer_encoded hwf h]
  refine ⟨⟨rfl, rfl⟩, fun x => ?_⟩
  rw [State.decoded, State.ok_frame]
  by_cases hx : x = t
  · subst hx
    exact populate_fieldValues_frame fun k => (h k).1
  · rw [State.populate_frame_ne _ t x _ hx, hfields x]

/-- Settles O29: the fields DEC leaves are legal, so ENC packs them, and packing what was unpacked clears the pad bits. -/
theorem decodeThenEncodeWritesBack : Obligations.DecodeThenEncodeWritesBack := by
  unfold Obligations.DecodeThenEncodeWritesBack
  intro t s d hwf hall hreject h herr
  have hwfd := exec_keeps_wf h hwf
  obtain ⟨⟨⟨hlen, hheader, -⟩, henums, -⟩, hd⟩ := exec_dec_noError h herr
  have hvalues : fieldValues (d.frame t) = unpack t (payloadOf s) := by rw [hd, fieldValues_populate]
  have hlegal : AllLegal t d := fun k => by
    have hk := legal_unpack hreject henums k
    rw [hd]
    simpa using hk
  have hkept : d.fbuf = s.fbuf := by rw [hd]; simp
  obtain ⟨hbuffer, -, -, -, hok⟩ := encoded_frame d t
  have hbytes := fun i hi => readByte_encoded_of_unpacked hwfd (hheader hall) hvalues (i := i) hi
  have houtside : SameBufferBut 0 (frameLength t) s (d.encoded t) := fun x hx => by rw [hbuffer x hx, hkept]
  refine ⟨_, exec_enc_of_allLegal hwfd hlegal, hok, ?_, hbytes, houtside, fun hpads a => ?_⟩
  · exact BitVec.eq_of_toNat_eq ((d.encoded_flen t).trans hlen.symm)
  · by_cases ha : a < frameLength t
    · have hle := frameLength_le t
      rw [hbytes a ha, byteAt_and_keptBits hpads, readByte_of_wf hwf (by omega)]
    · exact houtside a (.inr (by omega))

end Sys2Proof.Machine
end

section
/-! ## Family 41_frame_fields: CLR, SETF, GETF and NEWD, the restart by CLR, and what each command may write -/

namespace Sys2Proof

/-! ### Field indices that no type has (30_encoding.md R75 (d)) -/

/-- A word that is illegal by R75 does not decode. -/
theorem decode_error_of_illegalByRule {w : Word} (h : illegalByRule w) : ∃ e, decode w = .error e := by
  cases hd : decode w with
  | error e => exact ⟨e, rfl⟩
  | ok i => exact absurd h ((legalWordsAreExactlyTheOthers w).mp ⟨i, hd⟩)

/-- The word of SETF or GETF with a field index the type does not have does not decode. -/
theorem decode_error_of_fieldIndex {w : Word} {t : FrameType} {k : BitVec 4} (hop : opField w = 2 ∨ opField w = 3)
    (hft : ftField w = t.index) (hfidx : fidxField w = k) (h : t.fieldCount ≤ k.toNat) :
    ∃ e, decode w = .error e := by
  have hcount : (FrameType.ofIndex (ftField w)).fieldCount ≤ (fidxField w).toNat := by
    rwa [hft, hfidx, ofIndex_index]
  refine decode_error_of_illegalByRule ?_
  unfold illegalByRule
  exact .inr (.inr (.inr (.inl ⟨hop, hcount⟩)))

end Sys2Proof

namespace Sys2Proof.Machine

/-! ### What writing the fields of a type or the result leaves alone -/

/-- Completing after writing the register set of a type changes that type's fields, ERR and ERRF alone. -/
theorem setFrame_ok_frame (s : State) (t : FrameType) (fs : Vector FieldReg t.fieldCount) :
    SameFieldsBut t s (s.setFrame t fs).ok ∧ SameBuffer s (s.setFrame t fs).ok ∧ (s.setFrame t fs).ok.flen = s.flen ∧
      SameResult s (s.setFrame t fs).ok ∧ SameModel s (s.setFrame t fs).ok ∧ NoError (s.setFrame t fs).ok :=
  ⟨fun u hu => by rw [State.ok_frame, State.setFrame_frame_ne s t u fs hu], fun _ => by simp, by simp,
    ⟨by simp, by simp⟩, ⟨by simp, by simp, by simp⟩, ⟨rfl, rfl⟩⟩

/-- Raising an error over an emptied type changes that type's fields, ERR and ERRF alone (41_frame_fields.md R143). -/
theorem clearFrame_raise_frame (s : State) (t : FrameType) (e : CmdError) :
    SameFieldsBut t s ((s.clearFrame t).raise e) ∧ SameBuffer s ((s.clearFrame t).raise e) ∧
      ((s.clearFrame t).raise e).flen = s.flen ∧ SameResult s ((s.clearFrame t).raise e) ∧
      SameModel s ((s.clearFrame t).raise e) :=
  ⟨fun u hu => by rw [State.raise_frame, State.clearFrame_frame_ne s t u hu], fun _ => by simp, by simp,
    ⟨by simp, by simp⟩, ⟨by simp, by simp, by simp⟩⟩

/-- Completing after writing the result changes RES, RESV, ERR and ERRF alone. -/
theorem setResult_ok_frame (s : State) (w : Word) (b : Bool) :
    SameFields s (s.setResult w b).ok ∧ SameBuffer s (s.setResult w b).ok ∧ (s.setResult w b).ok.flen = s.flen ∧
      SameModel s (s.setResult w b).ok ∧ NoError (s.setResult w b).ok :=
  ⟨fun _ => by simp, fun _ => rfl, rfl, ⟨rfl, rfl, rfl⟩, ⟨rfl, rfl⟩⟩

/-! ### GETF's reading of a field (41_frame_fields.md R142) -/

theorem readField_of_unset {kind : FieldKind} {r : FieldReg} (h : r.v = false) : readField kind r = (0, false) :=
  if_pos h

theorem readField_of_set {kind : FieldKind} {r : FieldReg} (h : r.v = true) :
    readField kind r = (extendField kind r.fv, true) := by
  simp [readField, h]

/-- An s16 field keeps its signed value. -/
theorem extendField_s16_toInt (x : Half) : (extendField .s16 x).toInt = x.toInt :=
  BitVec.toInt_signExtend_of_le (by decide)

/-- A field of any other kind keeps its unsigned value. -/
theorem extendField_toNat {kind : FieldKind} (h : kind ≠ .s16) (x : Half) : (extendField kind x).toNat = x.toNat := by
  cases kind with
  | s16 => exact absurd rfl h
  | u8 | b1 | dir | hvc => exact BitVec.toNat_setWidth_of_le (by decide)

/-! ### NEWD (41_frame_fields.md R143) -/

/-- What NEWD leaves on an answer of DEC's checks: the error raised over the emptied type, or the type populated. -/
def State.constructed (s : State) (t : FrameType) : Except CmdError (Vector Half t.fieldCount) → State
  | .error e => (s.clearFrame t).raise e
  | .ok u => (s.populate t u).ok

/-- With the buffer in canonical form NEWD of Status or DiagRec commits the answer of DEC's checks. -/
theorem exec_newd_of_wf {t : FrameType} {s : State} (ht : t.constructible = true) (hwf : Memory.wf s.fbuf) :
    exec (.newd t) s = .next (s.constructed t (decodeAnswer s t)) := by
  have hnewd : exec (.newd t) s = _ := execNewd_of_wf t s ht hwf
  rw [hnewd]
  cases decodeAnswer s t with
  | error e => rfl
  | ok u => simp [State.constructed]

/-! ### CLR of several types (70_reset_and_hazards.md R201) -/

/-- CLR of each of some types completes, empties these types and leaves everything else but ERR and ERRF alone. -/
theorem runCommands_clr (ts : List FrameType) (s : State) :
    ∃ s' : State, runCommands (ts.map .clr) s = .next s' ∧
      (∀ t : FrameType, t ∈ ts → s'.frame t = Vector.replicate t.fieldCount .unset) ∧
      (∀ t : FrameType, t ∉ ts → s'.frame t = s.frame t) ∧
      SameBuffer s s' ∧ s'.flen = s.flen ∧ SameResult s s' ∧ SameModel s s' := by
  induction ts generalizing s with
  | nil =>
    exact ⟨s, rfl, fun t ht => absurd ht List.not_mem_nil, fun _ _ => rfl, fun _ => rfl, rfl, ⟨rfl, rfl⟩, ⟨rfl, rfl, rfl⟩⟩
  | cons u ts ih =>
    obtain ⟨s', hrun, hcleared, hkept, hbuffer, hlen, hresult, hmodel⟩ := ih (s.clearFrame u).ok
    refine ⟨s', hrun, fun t ht => ?_, fun t ht => ?_, fun a => by simpa using hbuffer a, by simpa using hlen,
      by simpa [SameResult] using hresult, by simpa [SameModel] using hmodel⟩
    · by_cases hts : t ∈ ts
      · exact hcleared t hts
      · obtain rfl := (List.mem_cons.mp ht).resolve_right hts
        rw [hkept t hts, State.ok_frame, State.clearFrame_frame_self]
    · rw [List.mem_cons, not_or] at ht
      obtain ⟨hu, hts⟩ := ht
      rw [hkept t hts, State.ok_frame, State.clearFrame_frame_ne s u t hu]

/-! ### What each command may write (10_state.md R35) -/

/-- The states a command may leave, seen from above: the state before it with some error raised, which covers every
command that can fail, or the one update of its own rule. -/
inductive CommandEffect (s : State) : Instr → State → Prop where
  | error (i : Instr) (e : CmdError) : CommandEffect s i (s.raise e)
  | clr (t : FrameType) : CommandEffect s (.clr t) (s.clearFrame t).ok
  | setf (t : FrameType) (k : BitVec 4) (x : Half) (h : k.toNat < t.fieldCount) :
    CommandEffect s (.setf t k x) (s.setFrame t ((s.frame t).set k.toNat ⟨x, true⟩ h)).ok
  | getf (t : FrameType) (k : BitVec 4) (h : k.toNat < t.fieldCount) :
    CommandEffect s (.getf t k) (s.setResult (readField (kinds t)[k.toNat] (s.frame t)[k.toNat]).1
      (readField (kinds t)[k.toNat] (s.frame t)[k.toNat]).2).ok
  | enc (t : FrameType) :
    CommandEffect s (.enc t) (s.putFrame (frameBytes t (s.frame t)) (frameLength t)).ok
  | dec (t : FrameType) (u : Vector Half t.fieldCount) : CommandEffect s (.dec t) (s.populate t u).ok
  | newd (t : FrameType) (u : Vector Half t.fieldCount) : CommandEffect s (.newd t) (s.populate t u).ok
  | newdError (t : FrameType) (e : CmdError) : CommandEffect s (.newd t) ((s.clearFrame t).raise e)
  | hdr (t : FrameType) : CommandEffect s (.hdr t) (s.putFrame (header t).toList 3).ok
  | wrb (a : BitVec 4) (b : Byte) :
    CommandEffect s (.wrb a b) { s with fbuf := writeByte s.fbuf (byteAddress a) b }.ok
  | rdb (a : BitVec 4) :
    CommandEffect s (.rdb a) (s.setResult ((byteAt s.fbuf (byteAddress a)).setWidth 32) true).ok
  | setlen (n : BitVec 5) : CommandEffect s (.setlen n) { s with flen := n }.ok
  | getlen : CommandEffect s .getlen (s.setResult (s.flen.setWidth 32) true).ok

/-- Every command that answers a next state has had one of its effects. -/
theorem exec_effect {i : Instr} {s s' : State} (h : exec i s = .next s') : CommandEffect s i s' := by
  cases i with
  | clr t =>
    obtain rfl := Host.Outcome.next.inj h
    exact .clr t
  | setf t k x =>
    by_cases hk : k.toNat < t.fieldCount
    · obtain rfl := Host.Outcome.next.inj ((execSetf_of_lt t k x s hk).symm.trans h)
      exact .setf t k x hk
    · obtain rfl := Host.Outcome.next.inj ((execSetf_of_ge t k x s (Nat.not_lt.mp hk)).symm.trans h)
      exact .error _ _
  | getf t k =>
    by_cases hk : k.toNat < t.fieldCount
    · obtain rfl := Host.Outcome.next.inj ((execGetf_of_lt t k s hk).symm.trans h)
      exact .getf t k hk
    · obtain rfl := Host.Outcome.next.inj ((execGetf_of_ge t k s (Nat.not_lt.mp hk)).symm.trans h)
      exact .error _ _
  | enc t =>
    rcases execEnc_cases h with ⟨e, -, rfl⟩ | ⟨-, rfl, -⟩
    · exact .error _ e
    · exact .enc t
  | dec t =>
    rcases execDec_cases h with ⟨e, -, rfl⟩ | ⟨u, -, rfl⟩
    · exact .error _ e
    · exact .dec t u
  | newd t =>
    rcases execNewd_cases h with ⟨-, rfl⟩ | ⟨-, e, -, rfl⟩ | ⟨-, u, -, rfl⟩
    · exact .error _ _
    · exact .newdError t e
    · exact .newd t u
  | hdr t =>
    obtain ⟨rfl, -⟩ := execHdr_cases h
    exact .hdr t
  | wrb a b =>
    obtain ⟨rfl, -⟩ := execWrb_cases h
    exact .wrb a b
  | rdb a =>
    obtain ⟨rfl, -⟩ := execRdb_cases h
    exact .rdb a
  | setlen n =>
    rcases execSetlen_cases h with ⟨-, rfl⟩ | ⟨-, rfl⟩
    · exact .setlen n
    · exact .error _ _
  | getlen =>
    obtain rfl := Host.Outcome.next.inj h
    exact .getlen

/-- A field that reads otherwise after the register set of `t` was written is a field of `t`. -/
theorem type_of_setFrame_changed {s : State} {t u : FrameType} {fs : Vector FieldReg t.fieldCount}
    {j : Fin u.fieldCount} (h : ((s.setFrame t fs).frame u)[j] ≠ (s.frame u)[j]) : t = u := by
  by_contra hne
  exact h (by rw [State.setFrame_frame_ne s t u fs (Ne.symm hne)])

section
variable {i : Instr} {s s' : State}

theorem CommandEffect.sameModel (h : CommandEffect s i s') : SameModel s s' := by
  cases h <;> exact ⟨by simp, by simp, by simp⟩

/-- Field registers are written by CLR, SETF, DEC and NEWD (41_frame_fields.md R140 to R143, 40_codec.md R111). -/
theorem CommandEffect.field_changed (h : CommandEffect s i s') {t : FrameType} {j : Fin t.fieldCount}
    (hj : (s'.frame t)[j] ≠ (s.frame t)[j]) :
    i = .clr t ∨ (∃ k x, i = .setf t k x ∧ k.toNat = j.val) ∨ (i = .dec t ∧ s'.err = 0) ∨ i = .newd t := by
  cases h with
  | clr u =>
    rw [State.ok_frame] at hj
    obtain rfl := type_of_setFrame_changed hj
    exact .inl rfl
  | setf u k x hk =>
    rw [State.ok_frame] at hj
    obtain rfl := type_of_setFrame_changed hj
    refine .inr (.inl ⟨k, x, rfl, ?_⟩)
    by_contra hne
    exact hj (by simp [Vector.getElem_set_ne _ _ hne])
  | dec u v =>
    rw [State.ok_frame] at hj
    obtain rfl := type_of_setFrame_changed hj
    exact .inr (.inr (.inl ⟨rfl, rfl⟩))
  | newd u v =>
    rw [State.ok_frame] at hj
    obtain rfl := type_of_setFrame_changed hj
    exact .inr (.inr (.inr rfl))
  | newdError u e =>
    rw [State.raise_frame] at hj
    obtain rfl := type_of_setFrame_changed hj
    exact .inr (.inr (.inr rfl))
  | error | getf | enc | hdr | wrb | rdb | setlen | getlen => exact absurd (by simp) hj

/-- FBUF is written by ENC, HDR and WRB, each at its own addresses (40_codec.md R110, R112, 42_buffer.md R160). -/
theorem CommandEffect.byte_changed (h : CommandEffect s i s') {a : Nat}
    (ha : readByte s'.fbuf a ≠ readByte s.fbuf a) :
    (∃ t, i = .enc t ∧ a < frameLength t ∧ s'.err = 0) ∨ (∃ t, i = .hdr t ∧ a < 3) ∨
      (∃ x b, i = .wrb x b ∧ a = byteAddress x) := by
  cases h with
  | enc t =>
    refine .inl ⟨t, rfl, ?_, rfl⟩
    by_contra hout
    obtain ⟨hbuffer, -⟩ := putFrame_ok_frame s (frameBytes t (s.frame t)) (frameLength t)
    exact ha (hbuffer a (.inr (by rw [frameBytes_length]; omega)))
  | hdr t =>
    refine .inr (.inl ⟨t, rfl, ?_⟩)
    by_contra hout
    obtain ⟨hbuffer, -⟩ := putFrame_ok_frame s (header t).toList 3
    exact ha (hbuffer a (.inr (by simpa using hout)))
  | wrb x b =>
    refine .inr (.inr ⟨x, b, rfl, ?_⟩)
    by_contra hne
    exact ha (readByte_writeByte_ne s.fbuf (byteAddress x) a b hne)
  | error | clr | setf | getf | dec | newd | newdError | rdb | setlen | getlen => exact absurd (by simp) ha

/-- FLEN is written by ENC, HDR and SETLEN (40_codec.md R110, R112, 42_buffer.md R162). -/
theorem CommandEffect.length_changed (h : CommandEffect s i s') (hl : s'.flen ≠ s.flen) :
    s'.err = 0 ∧ ((∃ t, i = .enc t) ∨ (∃ t, i = .hdr t ∧ s'.flen = 3) ∨ (∃ n, i = .setlen n)) := by
  cases h with
  | enc t => exact ⟨rfl, .inl ⟨t, rfl⟩⟩
  | hdr t => exact ⟨rfl, .inr (.inl ⟨t, rfl, rfl⟩)⟩
  | setlen n => exact ⟨rfl, .inr (.inr ⟨n, rfl⟩)⟩
  | error | clr | setf | getf | dec | newd | newdError | wrb | rdb | getlen => exact absurd (by simp) hl

/-- RES and RESV are written by GETF, RDB and GETLEN (41_frame_fields.md R142, 42_buffer.md R161, R163). -/
theorem CommandEffect.result_changed (h : CommandEffect s i s') (hr : ¬ SameResult s s') :
    s'.err = 0 ∧ ((∃ t k, i = .getf t k) ∨ (∃ a, i = .rdb a) ∨ i = .getlen) := by
  cases h with
  | getf t k hk => exact ⟨rfl, .inl ⟨t, k, rfl⟩⟩
  | rdb a => exact ⟨rfl, .inr (.inl ⟨a, rfl⟩)⟩
  | getlen => exact ⟨rfl, .inr (.inr rfl)⟩
  | error | clr | setf | enc | dec | newd | newdError | hdr | wrb | setlen => exact absurd (by simp [SameResult]) hr

end

/-! ### The obligations -/

/-- Settles O14: CLR writes the type's register set as reset leaves it. -/
theorem clrUnsetsItsType : Obligations.ClrUnsetsItsType := by
  unfold Obligations.ClrUnsetsItsType
  intro t s
  exact ⟨(s.clearFrame t).ok, execClr_eq t s, allUnset_of_frame_eq_replicate (by simp), setFrame_ok_frame s t _⟩

/-- Settles O15: SETF writes one entry of the type's register set. -/
theorem setfStoresOneField : Obligations.SetfStoresOneField := by
  unfold Obligations.SetfStoresOneField
  refine ⟨fun t k x s hk => ?_, fun t k x hk => ?_⟩
  · refine ⟨_, execSetf_of_lt t k x s hk, by simp, by simp, fun j hj => ?_, setFrame_ok_frame s t _⟩
    simp [Vector.getElem_set_ne _ _ hj.symm]
  · exact decode_error_of_fieldIndex (t := t) (k := k) (by simp [encode]) (by simp [encode]) (by simp [encode]) hk

/-- Settles O16: GETF puts what `readField` says into RES and RESV. -/
theorem getfReadsOneField : Obligations.GetfReadsOneField := by
  unfold Obligations.GetfReadsOneField
  refine ⟨fun t k s hk => ?_, fun t k hk => ?_⟩
  · refine ⟨_, execGetf_of_lt t k s hk, fun hunset => ?_, fun hset hs16 => ?_, fun hset hother => ?_,
      setResult_ok_frame s _ _⟩
    · rw [readField_of_unset hunset]
      exact ⟨rfl, rfl⟩
    · rw [readField_of_set hset, hs16]
      exact ⟨extendField_s16_toInt _, rfl⟩
    · rw [readField_of_set hset]
      exact ⟨extendField_toNat hother _, rfl⟩
  · exact decode_error_of_fieldIndex (t := t) (k := k) (by simp [encode]) (by simp [encode]) (by simp [encode]) hk

/-- Settles O18: DEC and NEWD commit the same answer of the checks, and differ on an error alone. -/
theorem newdConstructsFromBytes : Obligations.NewdConstructsFromBytes := by
  unfold Obligations.NewdConstructsFromBytes
  intro t s ht hwf
  refine ⟨_, _, exec_dec_of_wf t hwf, exec_newd_of_wf ht hwf, fun ha he hp => ?_, fun herr => ?_⟩
  · rw [(decodeAnswer_eq_ok_iff s t _).mpr ⟨⟨ha, he, hp⟩, rfl⟩]
    exact ⟨rfl, ⟨rfl, rfl⟩, fun k => by simp [State.constructed]⟩
  · cases hd : decodeAnswer s t with
    | error e =>
      exact ⟨allUnset_of_frame_eq_replicate (by simp [State.constructed]), rfl, rfl, clearFrame_raise_frame s t e⟩
    | ok u =>
      rw [hd] at herr
      exact absurd rfl herr

/-- Settles O43: an emptied type's register set is the one reset leaves. -/
theorem sessionRestartByClr : Obligations.SessionRestartByClr := by
  unfold Obligations.SessionRestartByClr
  intro ts s
  simpa only [State.reset_frame] using runCommands_clr ts s

/-- Settles O40, clause by clause from the effects a command may have. -/
theorem writeSummary : Obligations.WriteSummary := by
  unfold Obligations.WriteSummary
  intro i s s' h
  have heffect := exec_effect h
  exact ⟨heffect.sameModel, fun _ _ => heffect.field_changed, fun _ => heffect.byte_changed, heffect.length_changed,
    heffect.result_changed⟩

end Sys2Proof.Machine
end

section
/-! ## Family 42_buffer: WRB, RDB, SETLEN and GETLEN -/

namespace Sys2Proof

/-! ### Lengths that no frame buffer holds (30_encoding.md R75 (e)) -/

/-- The word of SETLEN with a length of 17..31 does not decode. -/
theorem decode_error_of_length {w : Word} {n : BitVec 5} (hop : opField w = 10) (hlen : len5Field w = n)
    (h : 17 ≤ n.toNat) : ∃ e, decode w = .error e := by
  refine decode_error_of_illegalByRule ?_
  unfold illegalByRule
  exact .inr (.inr (.inr (.inr ⟨hop, hlen ▸ h⟩)))

/-- The length field of SETLEN's word is the command's length. -/
theorem len5Field_encode_setlen (n : BitVec 5) : len5Field (encode (.setlen n)) = n := by
  have hlow : (n.setWidth 16).extractLsb' 0 5 = n := by
    rw [BitVec.extractLsb'_setWidth_of_le (by decide), BitVec.extractLsb'_eq_self]
  rw [encode, len5Field_cmdWord, hlow]

end Sys2Proof

namespace Sys2Proof.Machine

open Sys2Proof.Config

/-! ### The bytes of a draw -/

/-- Every byte address a command can encode holds its draw after a reset (10_state.md R34). -/
theorem byteAt_drawnBuffer (n : Nat) (a : BitVec 4) : byteAt (drawnBuffer n) (byteAddress a) = fbufDraw n a.toNat := by
  rw [byteAt, readByte_drawnBuffer n _ (byteAddress_lt a), Option.getD_some, byteAddress]

/-! ### What the buffer commands do and leave alone -/

/-- Completing after writing one byte of FBUF changes that byte, ERR and ERRF alone. -/
theorem writeByte_ok_frame (s : State) (a : Nat) (b : Byte) :
    SameBufferBut a 1 s { s with fbuf := writeByte s.fbuf a b }.ok ∧
      SameFields s { s with fbuf := writeByte s.fbuf a b }.ok ∧
      SameResult s { s with fbuf := writeByte s.fbuf a b }.ok ∧
      SameModel s { s with fbuf := writeByte s.fbuf a b }.ok ∧ NoError { s with fbuf := writeByte s.fbuf a b }.ok :=
  ⟨fun x hx => readByte_writeByte_ne s.fbuf a x b (by omega), fun t => by cases t <;> rfl, ⟨rfl, rfl⟩,
    ⟨rfl, rfl, rfl⟩, ⟨rfl, rfl⟩⟩

/-- Completing after writing FLEN changes FLEN, ERR and ERRF alone. -/
theorem setLength_ok_frame (s : State) (n : BitVec 5) :
    SameFields s { s with flen := n }.ok ∧ SameBuffer s { s with flen := n }.ok ∧
      SameResult s { s with flen := n }.ok ∧ SameModel s { s with flen := n }.ok ∧ NoError { s with flen := n }.ok :=
  ⟨fun t => by cases t <;> rfl, fun _ => rfl, ⟨rfl, rfl⟩, ⟨rfl, rfl, rfl⟩, ⟨rfl, rfl⟩⟩

/-- SETLEN of a length the buffer can hold (42_buffer.md R162). -/
theorem execSetlen_of_le {n : BitVec 5} (s : State) (h : n.toNat ≤ 16) :
    execSetlen n s = .next { s with flen := n }.ok := if_pos h

/-- What GETLEN can do: put FLEN into RES (42_buffer.md R163). -/
theorem execGetlen_eq (s : State) : execGetlen s = .next (s.setResult (s.flen.setWidth 32) true).ok := rfl

/-! ### The obligations -/

/-- Settles O34: the canonical buffer has the byte, so the write takes place and is read back. -/
theorem wrbWritesOneByte : Obligations.WrbWritesOneByte := by
  unfold Obligations.WrbWritesOneByte
  intro a b s hwf
  have haddr : byteAddress a ∈ s.fbuf.map Prod.fst := (mem_addresses_of_wf hwf _).mpr (byteAddress_lt a)
  obtain ⟨hbuffer, hframe⟩ := writeByte_ok_frame s (byteAddress a) b
  exact ⟨_, execWrb_of_wf a b s hwf, readByte_writeByte_self s.fbuf _ b haddr, hbuffer, rfl, hframe⟩

/-- Settles O35: the canonical buffer has the byte, and RES takes it zero-extended. -/
theorem rdbReadsOneByte : Obligations.RdbReadsOneByte := by
  unfold Obligations.RdbReadsOneByte
  intro a s hwf
  obtain ⟨hfields, hbuffer, hlength, hmodel, herror⟩ :=
    setResult_ok_frame s ((byteAt s.fbuf (byteAddress a)).setWidth 32) true
  exact ⟨_, _, readByte_of_wf hwf (byteAddress_lt a), execRdb_of_wf a s hwf, BitVec.toNat_setWidth_of_le (by decide),
    rfl, hbuffer, hlength, hfields, hmodel, herror⟩

/-- Settles O36: the reset buffer is a draw in canonical form. -/
theorem rdbAfterResetReturnsTheDraw : Obligations.RdbAfterResetReturnsTheDraw := by
  unfold Obligations.RdbAfterResetReturnsTheDraw
  intro a
  exact ⟨_, execRdb_of_wf a State.reset (wf_drawnBuffer 0), congrArg (·.setWidth 32) (byteAt_drawnBuffer 0 a), rfl⟩

/-- Settles O37: a length up to 16 is stored; a longer one is illegal by R75 (e). -/
theorem setlenSetsTheLength : Obligations.SetlenSetsTheLength := by
  unfold Obligations.SetlenSetsTheLength
  refine ⟨fun n s hn => ?_, fun n hn => ?_⟩
  · exact ⟨_, execSetlen_of_le s hn, rfl, setLength_ok_frame s n⟩
  · exact decode_error_of_length (by simp [encode]) (len5Field_encode_setlen n) hn

/-- Settles O38: GETLEN has no check, and RES takes FLEN zero-extended. -/
theorem getlenReadsTheLength : Obligations.GetlenReadsTheLength := by
  unfold Obligations.GetlenReadsTheLength
  intro s
  obtain ⟨hfields, hbuffer, hlength, hmodel, herror⟩ := setResult_ok_frame s (s.flen.setWidth 32) true
  exact ⟨_, execGetlen_eq s, BitVec.toNat_setWidth_of_le (by decide), rfl, hlength, hfields, hbuffer, hmodel, herror⟩

end Sys2Proof.Machine
end

section
/-! ## Family 60_exceptions: what a failing command leaves -/

namespace Sys2Proof.Machine

/-- A command that ends with an error has raised it over the state before it, or is NEWD and has raised it over its
emptied type (60_exceptions.md R182): every other effect ends in `ok`. -/
theorem CommandEffect.raised_of_err_ne_zero {i : Instr} {s s' : State} (h : CommandEffect s i s') (herr : s'.err ≠ 0) :
    (∃ e, s' = s.raise e) ∨ ∃ t e, i = .newd t ∧ s' = (s.clearFrame t).raise e := by
  cases h with
  | error _ e => exact .inl ⟨e, rfl⟩
  | newdError t e => exact .inr ⟨t, e, rfl, rfl⟩
  | clr | setf | getf | enc | dec | newd | hdr | wrb | rdb | setlen | getlen => exact absurd (State.ok_err _) herr

/-- Settles O41: an error is raised over the state before the command, or over NEWD's emptied type. -/
theorem errorsArePrecise : Obligations.ErrorsArePrecise := by
  unfold Obligations.ErrorsArePrecise
  intro i s s' h herr
  rcases (exec_effect h).raised_of_err_ne_zero herr with ⟨e, rfl⟩ | ⟨t, e, rfl, rfl⟩
  · exact .inl (onlyError_raise s e)
  · have hunset : AllUnset t ((s.clearFrame t).raise e) := allUnset_of_frame_eq_replicate (by simp)
    exact .inr ⟨t, rfl, hunset, clearFrame_raise_frame s t e⟩

end Sys2Proof.Machine
end

section
/-! ## Family other: decoding and encoding, packing, the step, and the invariant of every run -/

namespace Sys2Proof

/-! ### The operands and the values of a command's word (30_encoding.md R71, R74) -/

/-- Every well-formed command's word is selected by the row of its mnemonic alone. -/
theorem rowOfWord (i : Instr) : Laws.RowOfWord.Statement i := by
  cases i with
  | clr t => exact Laws.RowOfWord.clr t
  | setf t k x => exact Laws.RowOfWord.setf t k x
  | getf t k => exact Laws.RowOfWord.getf t k
  | enc t => exact Laws.RowOfWord.enc t
  | dec t => exact Laws.RowOfWord.dec t
  | newd t => exact Laws.RowOfWord.newd t
  | hdr t => exact Laws.RowOfWord.hdr t
  | wrb a b => exact Laws.RowOfWord.wrb a b
  | rdb a => exact Laws.RowOfWord.rdb a
  | setlen n => exact Laws.RowOfWord.setlen n
  | getlen => exact Laws.RowOfWord.getlen

/-- A command's operands can be read back from its word. -/
theorem operandsOf_encode (i : Instr) : operandsOf i.opcode (encode i) = i := by
  cases i with
  | clr | setf | getf | enc | dec | newd | hdr | rdb | getlen => simp [Instr.opcode, operandsOf, encode]
  | wrb a b =>
    have himm8 : (b.setWidth 16).extractLsb' 0 8 = b := Machine.lowByte_setWidth b
    simp [Instr.opcode, operandsOf, encode, himm8]
  | setlen n => simp [Instr.opcode, operandsOf, len5Field_encode_setlen]

/-- The value checks pass where a command is well-formed; that NEWD's type has a NEWD is the mask's part of R73. -/
theorem valueError_eq_none_iff (i : Instr) :
    valueError i = none ↔ i.wellFormed = true ∨ ∃ t, i = .newd t := by
  cases i with
  | setf | getf | setlen => simp [valueError, Instr.wellFormed]
  | clr | enc | dec | newd | hdr | wrb | rdb | getlen => simp [valueError, Instr.wellFormed]

/-- The word of a well-formed command decodes to it: its row selects it, and its operands pass the value checks. -/
theorem decode_encode {i : Instr} (h : i.wellFormed = true) : decode (encode i) = .ok i := by
  obtain ⟨r, hr, hop⟩ := exists_row i.opcode
  have hselects : r.selects (encode i) = true := (rowOfWord i h r hr).mpr hop
  rw [decode_of_selects hr hselects, hop, operandsOf_encode, (valueError_eq_none_iff i).mpr (.inl h), Option.elim_none]

/-! ### A word from its fields -/

/-- A range of zero bits holds every range inside it. -/
theorem extractLsb'_eq_zero_of_le {w : Word} {a n b m : Nat} (h : w.extractLsb' a n = 0)
    (hlow : a ≤ b := by decide) (hhigh : b + m ≤ a + n := by decide) : w.extractLsb' b m = 0 := by
  have hzero := (extractLsb'_eq_iff w 0 a n).mp (h.trans BitVec.extractLsb'_zero.symm)
  exact ((extractLsb'_eq_iff w 0 b m).mpr fun i hi hi' => hzero i (by omega) (by omega)).trans BitVec.extractLsb'_zero

/-- IMM16 is the zero-extension of its low bits where the bits above them are 0 (30_encoding.md R71). -/
theorem imm16Field_eq_setWidth {w : Word} {n : Nat} (h : w.extractLsb' n (16 - n) = 0) :
    imm16Field w = (w.extractLsb' 0 n).setWidth 16 := by
  have hzero := (extractLsb'_eq_iff w 0 n (16 - n)).mp (h.trans BitVec.extractLsb'_zero.symm)
  ext i hi
  by_cases hin : i < n
  · simp [imm16Field, hin]
  · have hbit := hzero i (by omega) (by omega)
    simpa [imm16Field, hin] using hbit

/-- A word is the command word of what its fields hold. -/
theorem cmdWord_eq_of_fields {w : Word} {op : BitVec 4} {ft : BitVec 2} {fidx : BitVec 4} {rsv : BitVec 2}
    {baddr : BitVec 4} {imm : Half} (hop : opField w = op) (hft : ftField w = ft) (hfidx : fidxField w = fidx)
    (hrsv : rsvField w = rsv) (hbaddr : baddrField w = baddr) (himm : imm16Field w = imm) :
    cmdWord op ft fidx rsv baddr imm = w := by
  subst hop hft hfidx hrsv hbaddr himm
  exact cmdWord_fields w

/-- A word of which only OP and FT are not 0: CLR, ENC, DEC, NEWD and HDR (30_encoding.md R73). -/
theorem cmdWord_eq_of_type {w : Word} {op : BitVec 4} (hop : opField w = op) (h : w.extractLsb' 0 26 = 0) :
    cmdWord op (FrameType.ofIndex (ftField w)).index 0 0 0 0 = w :=
  cmdWord_eq_of_fields hop (index_ofIndex _).symm (extractLsb'_eq_zero_of_le h) (extractLsb'_eq_zero_of_le h)
    (extractLsb'_eq_zero_of_le h) (extractLsb'_eq_zero_of_le h)

/-- Encoding the operands of a word with a mnemonic's opcode and fixed bits gives the word back: each of its fields is
an operand or fixed. -/
theorem encode_operandsOf {op : Opcode} {w : Word} (hop : opField w = op.code) (hfix : op.FixedBits w) :
    encode (operandsOf op w) = w := by
  cases op with
  | clr | enc | dec | hdr => exact cmdWord_eq_of_type hop hfix
  | newd =>
    obtain ⟨hzero, -⟩ := hfix
    exact cmdWord_eq_of_type hop hzero
  | setf =>
    exact cmdWord_eq_of_fields hop (index_ofIndex _).symm rfl (extractLsb'_eq_zero_of_le hfix)
      (extractLsb'_eq_zero_of_le hfix) rfl
  | getf =>
    exact cmdWord_eq_of_fields hop (index_ofIndex _).symm rfl (extractLsb'_eq_zero_of_le hfix)
      (extractLsb'_eq_zero_of_le hfix) (extractLsb'_eq_zero_of_le hfix)
  | wrb =>
    obtain ⟨hhigh, himm⟩ := hfix
    exact cmdWord_eq_of_fields hop (extractLsb'_eq_zero_of_le hhigh) (extractLsb'_eq_zero_of_le hhigh)
      (extractLsb'_eq_zero_of_le hhigh) rfl (imm16Field_eq_setWidth himm)
  | rdb =>
    obtain ⟨hhigh, himm⟩ := hfix
    exact cmdWord_eq_of_fields hop (extractLsb'_eq_zero_of_le hhigh) (extractLsb'_eq_zero_of_le hhigh)
      (extractLsb'_eq_zero_of_le hhigh) rfl himm
  | setlen =>
    exact cmdWord_eq_of_fields hop (extractLsb'_eq_zero_of_le hfix) (extractLsb'_eq_zero_of_le hfix)
      (extractLsb'_eq_zero_of_le hfix) (extractLsb'_eq_zero_of_le hfix)
      (imm16Field_eq_setWidth (extractLsb'_eq_zero_of_le hfix))
  | getlen =>
    exact cmdWord_eq_of_fields hop (extractLsb'_eq_zero_of_le hfix) (extractLsb'_eq_zero_of_le hfix)
      (extractLsb'_eq_zero_of_le hfix) (extractLsb'_eq_zero_of_le hfix) (extractLsb'_eq_zero_of_le hfix)

/-- The operands of a word with a mnemonic's fixed bits make a well-formed command where the value checks pass; for NEWD
the fixed bits alone decide. -/
theorem wellFormed_operandsOf {op : Opcode} {w : Word} (hfix : op.FixedBits w)
    (hv : valueError (operandsOf op w) = none) : (operandsOf op w).wellFormed = true := by
  rcases (valueError_eq_none_iff _).mp hv with hwf | ⟨t, ht⟩
  · exact hwf
  · cases op with
    | newd =>
      obtain ⟨-, hbit⟩ := hfix
      have key : ∀ ft : BitVec 2, ¬ (ft = 0 ∨ ft = 2) → (FrameType.ofIndex ft).constructible = true := by decide
      exact key _ ((ftLowBit_eq_one_iff w).mp hbit)
    | clr | setf | getf | enc | dec | hdr | wrb | rdb | setlen | getlen => cases ht

/-- Where a word decodes, the command is the operands of a mnemonic whose opcode and fixed bits the word has. -/
theorem opcode_of_decode {w : Word} {i : Instr} (h : decode w = .ok i) :
    ∃ op : Opcode, opField w = op.code ∧ op.FixedBits w ∧ valueError i = none ∧ operandsOf op w = i := by
  obtain ⟨op, hop, hfix, hv⟩ := (exists_decode_iff_opcode w).mp ⟨i, h⟩
  obtain ⟨r, hr, rfl⟩ := exists_row op
  rw [decode_of_selects hr ((selects_iff_fixedBits hr w).mpr ⟨hop, hfix⟩), hv, Option.elim_none] at h
  obtain rfl := Except.ok.inj h
  exact ⟨r.op, hop, hfix, hv, rfl⟩

theorem encode_of_decode {w : Word} {i : Instr} (h : decode w = .ok i) : encode i = w := by
  obtain ⟨op, hop, hfix, -, rfl⟩ := opcode_of_decode h
  exact encode_operandsOf hop hfix

theorem wellFormed_of_decode {w : Word} {i : Instr} (h : decode w = .ok i) : i.wellFormed = true := by
  obtain ⟨op, -, hfix, hv, rfl⟩ := opcode_of_decode h
  exact wellFormed_operandsOf hfix hv

/-! ### The assembler's table (30_encoding.md R77) -/

/-- A command word as shifts of its fields. -/
theorem cmdWord_eq_or (op : BitVec 4) (ft : BitVec 2) (fidx : BitVec 4) (rsv : BitVec 2) (baddr : BitVec 4) (imm : Half) :
    cmdWord op ft fidx rsv baddr imm =
      op.setWidth 32 <<< 28 ||| ft.setWidth 32 <<< 26 ||| fidx.setWidth 32 <<< 22 ||| rsv.setWidth 32 <<< 20 |||
        baddr.setWidth 32 <<< 16 ||| imm.setWidth 32 := by
  refine BitVec.eq_of_getLsbD_eq fun i hi => ?_
  simp only [cmdWord, BitVec.getLsbD_append]
  interval_cases i <;> simp

/-! ### The obligations on command words -/

/-- Settles O10: the command's row selects its word, and the operands can be read back. -/
theorem decodeOfEncode : Obligations.DecodeOfEncode := by
  unfold Obligations.DecodeOfEncode
  intro i h
  exact decode_encode h

/-- Settles O11: every field of a word that decodes is an operand of its command or fixed by its row. -/
theorem encodeOfDecode : Obligations.EncodeOfDecode := by
  unfold Obligations.EncodeOfDecode
  intro w i h
  exact ⟨encode_of_decode h, wellFormed_of_decode h⟩

/-- Settles O12: each word is the encoding of its command. -/
theorem specWordsDecode : Obligations.SpecWordsDecode := by
  unfold Obligations.SpecWordsDecode
  exact ⟨decode_encode (i := .clr .control) rfl, decode_encode (i := .setf .control 0 16000) rfl,
    decode_encode (i := .getf .diagRec 7) rfl, decode_encode (i := .enc .control) rfl,
    decode_encode (i := .dec .status) rfl, decode_encode (i := .newd .diagRec) rfl,
    decode_encode (i := .hdr .diagSend) rfl, decode_encode (i := .wrb 15 0xA5) rfl,
    decode_encode (i := .rdb 9) rfl, decode_encode (i := .setlen 16) rfl, decode_encode (i := .getlen) rfl⟩

/-- Settles O13: the table leaves out the fields of a command that are 0. -/
theorem encodeIsTheAssemblerTable : Obligations.EncodeIsTheAssemblerTable := by
  unfold Obligations.EncodeIsTheAssemblerTable
  intro t k a x b n
  simp [encode, cmdWord_eq_or]

end Sys2Proof

namespace Sys2Proof.Machine

/-! ### The Status payload as numbers (30_encoding.md R84) -/

/-- The byte that five Status fields share, as a number. -/
theorem statusSharedByte_toNat (f : Vector Half 9) :
    ((0 : BitVec 2) ++ lowBits 1 f[1] ++ lowBits 1 f[2] ++ lowBits 1 f[3] ++ lowBits 1 f[4] ++ lowBits 2 f[5]).toNat =
      32 * (f[1].toNat % 2) + 16 * (f[2].toNat % 2) + 8 * (f[3].toNat % 2) + 4 * (f[4].toNat % 2) + f[5].toNat % 4 := by
  simp only [append_toNat, lowBits_toNat, BitVec.ofNat_eq_ofNat, BitVec.toNat_ofNat]
  omega

/-- The Status fields in order, as bits of the payload bytes. -/
theorem unpack_status_toList (p : Nat → Byte) :
    (unpack .status p).toList =
      [p 1 ++ p 0, ((p 2).extractLsb' 5 1).setWidth 16, ((p 2).extractLsb' 4 1).setWidth 16,
       ((p 2).extractLsb' 3 1).setWidth 16, ((p 2).extractLsb' 2 1).setWidth 16, ((p 2).extractLsb' 0 2).setWidth 16,
       (p 3).setWidth 16, (p 4).setWidth 16, (p 5).setWidth 16] := rfl

/-- Status's 2 pad bits: the top of payload byte 2. -/
theorem padBits_status_toNat (p : Nat → Byte) : (padBits .status p).toNat = (p 2).toNat / 64 := by
  have hbits : (padBits .status p).toNat = ((p 2).extractLsb' 6 2).toNat := rfl
  have hbyte : (p 2).toNat < 2 ^ 8 := (p 2).isLt
  rw [hbits, BitVec.extractLsb'_toNat, Nat.shiftRight_eq_div_pow]
  omega

/-! ### One step, by the host's next input (00_scope.md R4) -/

section
variable {s : State} {rest : List HostInput}

theorem step_of_no_input (h : s.inputs = []) : step s = .next s := by simp only [step, h]

theorem step_of_decode_ok {w : Word} {i : Instr} (h : s.inputs = .command w :: rest) (hd : decode w = .ok i) :
    step s = exec i (s.takeInput rest) := by simp only [step, h, hd]

theorem step_of_decode_error {w : Word} {e : IllegalWord} (h : s.inputs = .command w :: rest)
    (hd : decode w = .error e) : step s = .next ((s.takeInput rest).rejectWord e) := by simp only [step, h, hd]

theorem step_of_reset (h : s.inputs = .reset :: rest) : step s = .next (s.takeInput rest).takeReset := by
  simp only [step, h]

theorem step_of_overlapping {w w' : Word} (h : s.inputs = .overlapping w w' :: rest) :
    step s = .fault .overlappingCommands := by simp only [step, h]

end

/-- A step takes one input, if there is one, and keeps the policy. -/
theorem step_inputs_policy {s s' : State} (h : step s = .next s') :
    s'.inputs = s.inputs.tail ∧ s'.policy = s.policy := by
  rcases step_cases h with ⟨hin, rfl⟩ | ⟨w, rest, i, hin, -, hexec⟩ | ⟨w, rest, e, hin, -, rfl⟩ | ⟨rest, hin, rfl⟩
  · simp [hin]
  · obtain ⟨hpolicy, -, hinputs⟩ := (exec_effect hexec).sameModel
    simp [hin, hpolicy, hinputs]
  · simp [hin]
  · simp [hin]

/-! ### Commands that complete -/

/-- A command the encoding does not admit is illegal in every state (30_encoding.md R74; log 7). -/
theorem exec_of_not_wellFormed {i : Instr} (h : i.wellFormed = false) (s : State) :
    exec i s = .next (s.raise .illegalCommand) := by
  cases i with
  | setf t k x => exact execSetf_of_ge t k x s (by simpa [Instr.wellFormed] using h)
  | getf t k => exact execGetf_of_ge t k s (by simpa [Instr.wellFormed] using h)
  | newd t =>
    have ht : t.constructible = false := h
    simp [exec, execNewd, ht]
  | setlen n =>
    have hn : 16 < n.toNat := by simpa [Instr.wellFormed] using h
    simp [exec, execSetlen, Nat.not_le.mpr hn]
  | clr | enc | dec | hdr | wrb | rdb | getlen => cases h

/-- With the buffer in canonical form every command answers a next state: the guard of the buffer never faults. -/
theorem exec_completes (i : Instr) {s : State} (hwf : Memory.wf s.fbuf) : ∃ s', exec i s = .next s' := by
  cases hi : i.wellFormed with
  | false => exact ⟨_, exec_of_not_wellFormed hi s⟩
  | true =>
    cases i with
    | clr t => exact ⟨_, execClr_eq t s⟩
    | setf t k x => exact ⟨_, execSetf_of_lt t k x s (of_decide_eq_true hi)⟩
    | getf t k => exact ⟨_, execGetf_of_lt t k s (of_decide_eq_true hi)⟩
    | enc t => exact exec_enc_completes t hwf
    | dec t => exact ⟨_, exec_dec_of_wf t hwf⟩
    | newd t => exact ⟨_, exec_newd_of_wf hi hwf⟩
    | hdr t => exact ⟨_, execHdr_of_wf t s hwf⟩
    | wrb a b => exact ⟨_, execWrb_of_wf a b s hwf⟩
    | rdb a => exact ⟨_, execRdb_of_wf a s hwf⟩
    | setlen n => exact ⟨_, execSetlen_of_le s (of_decide_eq_true hi)⟩
    | getlen => exact ⟨_, execGetlen_eq s⟩

/-- With the buffer in canonical form and no overlapping command at the port a step answers a next state. -/
theorem step_completes {s : State} (hwf : Memory.wf s.fbuf)
    (hduty : ∀ x rest, s.inputs = x :: rest → x.dutiful = true) : ∃ s', step s = .next s' := by
  cases hin : s.inputs with
  | nil => exact ⟨s, step_of_no_input hin⟩
  | cons x rest =>
    cases x with
    | command w =>
      cases hd : decode w with
      | ok i =>
        rw [step_of_decode_ok hin hd]
        exact exec_completes i hwf
      | error e => exact ⟨_, step_of_decode_error hin hd⟩
    | reset => exact ⟨_, step_of_reset hin⟩
    | overlapping w w' => exact absurd (hduty _ rest hin) Bool.false_ne_true

/-! ### The errors that commands raise (60_exceptions.md R181) -/

/-- ENC reports a field index of at most 8. -/
theorem errorPairLegal_of_encodeError {t : FrameType} {fs : Vector FieldReg t.fieldCount} {e : CmdError}
    (h : encodeError t fs = some e) : errorPairLegal e.code e.detail = true := by
  obtain ⟨k, rfl | rfl⟩ := encodeError_cases t fs e h
  all_goals
    have hk : k.val ≤ 8 := by
      have hlt := k.isLt
      have hle := fieldCount_le t
      omega
    have hdetail : (BitVec.ofNat 4 k.val).toNat ≤ 8 := by
      rw [BitVec.toNat_ofNat]
      omega
    simpa [errorPairLegal, CmdError.code, CmdError.detail] using hdetail

/-- The enumerated fields are Control's direction and Status's hvcStatus (10_state.md R24, R25). -/
theorem index_of_isEnum {t : FrameType} {k : Fin t.fieldCount} (h : (kinds t)[k].isEnum = true) :
    k.val = 5 ∨ k.val = 6 := by
  revert k
  cases t <;> decide

/-- DEC and NEWD report the length, a header byte, an enumerated field or the pads. -/
theorem errorPairLegal_of_decodeAnswer {s : State} {t : FrameType} {e : CmdError} (h : decodeAnswer s t = .error e) :
    errorPairLegal e.code e.detail = true := by
  rcases decodeAnswer_error_cases s t e h with rfl | ⟨i, rfl⟩ | ⟨k, hk, rfl⟩ | rfl
  · decide
  · have key : ∀ i : Fin 3, errorPairLegal (CmdError.decHeader i).code (CmdError.decHeader i).detail = true := by decide
    exact key i
  · rcases index_of_isEnum hk with hk | hk <;> rw [hk] <;> decide
  · decide

/-! ### The invariant under each update of the state -/

namespace State.Inv

variable {s : State}

theorem raise (h : s.Inv) {e : CmdError} (he : errorPairLegal e.code e.detail = true) : (s.raise e).Inv where
  buffer := h.buffer
  unset t := by simpa using h.unset t
  length := h.length
  errors := he
  result := h.result

theorem ok (h : s.Inv) : s.ok.Inv where
  buffer := h.buffer
  unset t := by simpa using h.unset t
  length := h.length
  errors := rfl
  result := h.result

theorem takeInput (h : s.Inv) (rest : List HostInput) : (s.takeInput rest).Inv where
  buffer := h.buffer
  unset t := by simpa using h.unset t
  length := h.length
  errors := h.errors
  result := h.result

/-- Writing a register set keeps the invariant where the unset fields of the new one hold 0 (10_state.md R27). -/
theorem setFrame (h : s.Inv) {t : FrameType} {fs : Vector FieldReg t.fieldCount}
    (hfs : ∀ k : Fin t.fieldCount, fs[k].v = false → fs[k].fv = 0) : (s.setFrame t fs).Inv where
  buffer := by simpa using h.buffer
  unset u := by
    by_cases hu : u = t
    · subst hu
      simpa using hfs
    · rw [State.setFrame_frame_ne s t u fs hu]
      exact h.unset u
  length := by simpa using h.length
  errors := by simpa using h.errors
  result := by simpa using h.result

theorem clearFrame (h : s.Inv) (t : FrameType) : (s.clearFrame t).Inv :=
  h.setFrame fun k _ => by simp [FieldReg.unset]

theorem populate (h : s.Inv) (t : FrameType) (u : Vector Half t.fieldCount) : (s.populate t u).Inv :=
  h.setFrame fun k hk => by simp at hk

/-- Setting one field keeps the invariant, whatever its value (41_frame_fields.md R141). -/
theorem setField (h : s.Inv) {t : FrameType} {k : Nat} (hk : k < t.fieldCount) (x : Half) :
    (s.setFrame t ((s.frame t).set k ⟨x, true⟩ hk)).Inv := by
  refine h.setFrame fun j hj => ?_
  by_cases hjk : k = j.val
  · subst hjk
    simp at hj
  · simp only [Fin.getElem_fin, Vector.getElem_set_ne _ _ hjk] at hj ⊢
    exact h.unset t j hj

/-- Writing a result keeps the invariant where an invalid one is 0 (10_state.md R31). -/
theorem setResult (h : s.Inv) {w : Word} {b : Bool} (hw : b = false → w = 0) : (s.setResult w b).Inv where
  buffer := h.buffer
  unset t := by simpa using h.unset t
  length := h.length
  errors := h.errors
  result := hw

/-- Writing bytes and a length keeps the invariant where the length fits the buffer. -/
theorem putFrame (h : s.Inv) {bs : List Byte} {n : Nat} (hn : n ≤ 16) : (s.putFrame bs n).Inv where
  buffer := wf_writeBytes h.buffer 0 bs
  unset t := by simpa using h.unset t
  length := (Nat.mod_le n _).trans hn
  errors := h.errors
  result := h.result

theorem withByte (h : s.Inv) (a : Nat) (b : Byte) : State.Inv { s with fbuf := writeByte s.fbuf a b } where
  buffer := wf_writeByte h.buffer a b
  unset t := by simpa using h.unset t
  length := h.length
  errors := h.errors
  result := h.result

theorem withLength (h : s.Inv) {n : BitVec 5} (hn : n.toNat ≤ 16) : State.Inv { s with flen := n } where
  buffer := h.buffer
  unset t := by simpa using h.unset t
  length := hn
  errors := h.errors
  result := h.result

/-- The state after reset meets the invariant (10_state.md R34). -/
theorem reset : State.reset.Inv where
  buffer := wf_drawnBuffer 0
  unset t := by simp [FieldReg.unset]
  length := Nat.zero_le 16
  errors := rfl
  result _ := rfl

/-- A reset event leads to the invariant from any state (70_reset_and_hazards.md R200). -/
theorem takeReset (s : State) : s.takeReset.Inv where
  buffer := wf_drawnBuffer _
  unset t := by simp [FieldReg.unset]
  length := Nat.zero_le 16
  errors := rfl
  result _ := rfl

end State.Inv

/-! ### The invariant under commands, steps and runs -/

/-- GETF returns 0 where it returns no value (41_frame_fields.md R142). -/
theorem readField_invalid {kind : FieldKind} {r : FieldReg} (h : (readField kind r).2 = false) :
    (readField kind r).1 = 0 := by
  cases hv : r.v with
  | false => rw [readField_of_unset hv]
  | true =>
    rw [readField_of_set hv] at h
    cases h

/-- Every command keeps the invariant. -/
theorem exec_keeps_inv {i : Instr} {s s' : State} (hs : s.Inv) (h : exec i s = .next s') : s'.Inv := by
  have hillegal : (s.raise .illegalCommand).Inv := hs.raise (by decide)
  cases i with
  | clr t =>
    obtain rfl := Host.Outcome.next.inj h
    exact (hs.clearFrame t).ok
  | setf t k x =>
    by_cases hk : k.toNat < t.fieldCount
    · obtain rfl := Host.Outcome.next.inj ((execSetf_of_lt t k x s hk).symm.trans h)
      exact (hs.setField hk x).ok
    · obtain rfl := Host.Outcome.next.inj ((execSetf_of_ge t k x s (Nat.not_lt.mp hk)).symm.trans h)
      exact hillegal
  | getf t k =>
    by_cases hk : k.toNat < t.fieldCount
    · obtain rfl := Host.Outcome.next.inj ((execGetf_of_lt t k s hk).symm.trans h)
      exact (hs.setResult readField_invalid).ok
    · obtain rfl := Host.Outcome.next.inj ((execGetf_of_ge t k s (Nat.not_lt.mp hk)).symm.trans h)
      exact hillegal
  | enc t =>
    rcases execEnc_cases h with ⟨e, he, rfl⟩ | ⟨-, rfl, -⟩
    · exact hs.raise (errorPairLegal_of_encodeError he)
    · exact (hs.putFrame ((frameLength_le t).trans (by decide))).ok
  | dec t =>
    rcases execDec_cases h with ⟨e, he, rfl⟩ | ⟨u, -, rfl⟩
    · exact hs.raise (errorPairLegal_of_decodeAnswer he)
    · exact (hs.populate t u).ok
  | newd t =>
    rcases execNewd_cases h with ⟨-, rfl⟩ | ⟨-, e, he, rfl⟩ | ⟨-, u, -, rfl⟩
    · exact hillegal
    · exact (hs.clearFrame t).raise (errorPairLegal_of_decodeAnswer he)
    · exact (hs.populate t u).ok
  | hdr t =>
    obtain ⟨rfl, -⟩ := execHdr_cases h
    exact (hs.putFrame (by decide)).ok
  | wrb a b =>
    obtain ⟨rfl, -⟩ := execWrb_cases h
    exact (hs.withByte _ b).ok
  | rdb a =>
    obtain ⟨rfl, -⟩ := execRdb_cases h
    exact (hs.setResult fun hvalid => absurd hvalid.symm Bool.false_ne_true).ok
  | setlen n =>
    rcases execSetlen_cases h with ⟨hn, rfl⟩ | ⟨-, rfl⟩
    · exact (hs.withLength hn).ok
    · exact hillegal
  | getlen =>
    obtain rfl := Host.Outcome.next.inj h
    exact (hs.setResult fun hvalid => absurd hvalid.symm Bool.false_ne_true).ok

/-- Every step keeps the invariant. -/
theorem step_keeps_inv {s s' : State} (hs : s.Inv) (h : step s = .next s') : s'.Inv := by
  rcases step_cases h with ⟨-, rfl⟩ | ⟨w, rest, i, -, -, hexec⟩ | ⟨w, rest, e, -, -, rfl⟩ | ⟨rest, -, rfl⟩
  · exact hs
  · exact exec_keeps_inv (hs.takeInput rest) hexec
  · exact (hs.takeInput rest).raise (by decide)
  · exact State.Inv.takeReset _

/-- A step leaves a dutiful host dutiful: it takes an input and adds none. -/
theorem step_keeps_duty {s s' : State} (hs : HostDuty s) (h : step s = .next s') : HostDuty s' := by
  obtain ⟨hinputs, -⟩ := step_inputs_policy h
  intro x hx
  rw [hinputs] at hx
  exact hs x (List.mem_of_mem_tail hx)

/-- What every step keeps holds of every state a run reaches. -/
theorem Reaches.keeps {P : State → Prop} (hstep : ∀ u v : State, P u → step u = .next v → P v) {s u : State}
    (h : Reaches s u) (hs : P s) : P u := by
  induction h with
  | refl => exact hs
  | tail _ hv ih => exact hstep _ _ ih hv

/-- A dutiful host's next input is no overlap. -/
theorem head_dutiful {s : State} (h : HostDuty s) (x : HostInput) (rest : List HostInput) (hin : s.inputs = x :: rest) :
    x.dutiful = true := h x (by simp [hin])

/-! ### The obligations on payloads and single commands -/

/-- Settles O20: the table of R80. -/
theorem headerConstants : Obligations.HeaderConstants := by
  unfold Obligations.HeaderConstants
  exact ⟨rfl, rfl, rfl, rfl⟩

/-- Settles O23, byte by byte; the shared byte and the pad bits by their own lemmas. -/
theorem statusPayloadLayout : Obligations.StatusPayloadLayout := by
  unfold Obligations.StatusPayloadLayout
  refine ⟨fun f => ?_, fun p => ⟨?_, padBits_status_toNat p⟩⟩
  · simp only [pack, packStatus, List.map_cons, List.map_nil, lowByte_toNat, highByte_toNat]
    rw [← statusSharedByte_toNat]
  · simp only [unpack_status_toList, List.map_cons, List.map_nil, append_toNat, byte_setWidth_toNat,
      byteBits_toNat _ _ 1 (by decide), byteBits_toNat _ _ 2 (by decide)]
    simp

/-- Settles O25, from the laws of packing that the two round trips of the codec rest on. -/
theorem packLosesNothing : Obligations.PackLosesNothing := by
  unfold Obligations.PackLosesNothing
  intro t f hlegal
  exact ⟨pack_length t f, unpack_pack hlegal, padBits_pack t f⟩

/-- Settles O19: each check that a command fails leads to the one error. -/
theorem illFormedCommandIsIllegal : Obligations.IllFormedCommandIsIllegal := by
  unfold Obligations.IllFormedCommandIsIllegal
  intro i s h
  exact ⟨_, exec_of_not_wellFormed h s, onlyError_raise s .illegalCommand⟩

/-! ### The obligations on one step -/

/-- Settles O2, from the register sets and the newly drawn buffer that a reset event leaves. -/
theorem resetEventRestoresEverything : Obligations.ResetEventRestoresEverything := by
  unfold Obligations.ResetEventRestoresEverything
  intro s rest h
  exact ⟨_, step_of_reset h, fun t => allUnset_of_frame_eq_replicate (State.takeReset_frame _ t),
    fun a ha => readByte_drawnBuffer _ a ha, rfl, rfl, rfl, rfl, rfl⟩

/-- Settles O3: the decoder answers well-formed commands alone. -/
theorem stepRunsDecodedCommand : Obligations.StepRunsDecodedCommand := by
  unfold Obligations.StepRunsDecodedCommand
  intro s w rest i h hd
  exact ⟨step_of_decode_ok h hd, wellFormed_of_decode hd⟩

/-- Settles O4: rejecting a word is raising the illegal command's error. -/
theorem illegalWordWritesOnlyTheError : Obligations.IllegalWordWritesOnlyTheError := by
  unfold Obligations.IllegalWordWritesOnlyTheError
  intro s w rest e h hd
  exact ⟨_, step_of_decode_error h hd, onlyError_raise (s.takeInput rest) .illegalCommand⟩

/-- Settles O5: a step without an input answers its own state. -/
theorem idleKeepsAllState : Obligations.IdleKeepsAllState := by
  unfold Obligations.IdleKeepsAllState
  intro s h
  exact step_of_no_input h

/-- Settles O6: an overlap is the one input that stops every step. -/
theorem overlapHasNoStep : Obligations.OverlapHasNoStep := by
  unfold Obligations.OverlapHasNoStep
  intro s w w' rest h
  exact step_of_overlapping h

/-- Settles O7, case by case of what a step can do. -/
theorem stepTakesOneInputAndKeepsPolicy : Obligations.StepTakesOneInputAndKeepsPolicy := by
  unfold Obligations.StepTakesOneInputAndKeepsPolicy
  intro s s' h
  exact step_inputs_policy h

/-! ### The obligations on the invariant and on runs -/

/-- Settles O45: every update that a step makes of the state keeps the invariant. -/
theorem stepKeepsInvariant : Obligations.StepKeepsInvariant := by
  unfold Obligations.StepKeepsInvariant
  intro s s' hs h
  exact step_keeps_inv hs h

/-- Settles O46, clause by clause in `State.Inv.reset`. -/
theorem resetMeetsInvariant : Obligations.ResetMeetsInvariant := by
  unfold Obligations.ResetMeetsInvariant
  exact State.Inv.reset

/-- Settles O47: without an overlap only the guard of the buffer could stop a step. -/
theorem dutifulStepCompletes : Obligations.DutifulStepCompletes := by
  unfold Obligations.DutifulStepCompletes
  intro s hwf hduty
  exact step_completes hwf hduty

/-- Settles O48: the invariant and the host's duty hold along a run, and together let every step complete. -/
theorem dutifulRunsAreSafe : Obligations.DutifulRunsAreSafe := by
  unfold Obligations.DutifulRunsAreSafe
  intro s hs hduty
  have hrun : ∀ u : State, Reaches s u → u.Inv ∧ HostDuty u := fun u hu =>
    hu.keeps (P := fun u => u.Inv ∧ HostDuty u)
      (fun _ _ ⟨hinv, hd⟩ hstep => ⟨step_keeps_inv hinv hstep, step_keeps_duty hd hstep⟩) ⟨hs, hduty⟩
  refine ⟨fun u hu => ?_, fun u hu => ?_⟩
  · obtain ⟨hinv, hd⟩ := hrun u hu
    exact step_completes hinv.buffer (head_dutiful hd)
  · obtain ⟨hinv, -⟩ := hrun u hu
    exact hinv

end Sys2Proof.Machine
end
